-- ==== Sys2Proof/Word.lean ====
section
/-! DEFINITION. The word types of the Swift-8 CORE (00_scope.md R9, R15): all values are unsigned. -/

namespace Sys2Proof

/-- u8: a register, a memory cell, a timer, an immediate NN (00_scope.md R15). -/
abbrev Byte := BitVec 8

/-- u16: an instruction word, I, pc, a stack entry (00_scope.md R3). -/
abbrev Half := BitVec 16

/-- u12: the address field NNN (30_encoding.md R103). -/
abbrev Addr12 := BitVec 12

/-- A register index X or Y: every 4-bit value names a register (10_state.md R31). -/
abbrev Reg := Fin 16

/-- A key index 0x0 to 0xF (45_timers_keypad.md R315). -/
abbrev KeyIdx := Fin 16

end Sys2Proof
end

