-- ==== Sys2Proof/Syntax.lean ====
section
/-! DEFINITION. The 34 instructions of the canonical opcode table, one constructor a row
(30_encoding.md R106, opcode_table.json). -/

namespace Sys2Proof

/-- One instruction. `x`, `y` are the register fields, `nn` the 8-bit literal, `nnn` the 12-bit address, `n` the row
count of DXYN (30_encoding.md R103, R105). -/
inductive Instr where
  | cls                                  -- 00E0
  | ret                                  -- 00EE
  | jp (nnn : Addr12)                    -- 1NNN
  | call (nnn : Addr12)                  -- 2NNN
  | seVxNn (x : Reg) (nn : Byte)         -- 3XNN
  | sneVxNn (x : Reg) (nn : Byte)        -- 4XNN
  | seVxVy (x y : Reg)                   -- 5XY0
  | ldVxNn (x : Reg) (nn : Byte)         -- 6XNN
  | addVxNn (x : Reg) (nn : Byte)        -- 7XNN
  | ldVxVy (x y : Reg)                   -- 8XY0
  | orVxVy (x y : Reg)                   -- 8XY1
  | andVxVy (x y : Reg)                  -- 8XY2
  | xorVxVy (x y : Reg)                  -- 8XY3
  | addVxVy (x y : Reg)                  -- 8XY4
  | subVxVy (x y : Reg)                  -- 8XY5
  | shrVx (x y : Reg)                    -- 8XY6, y encoded but not read (R105)
  | subnVxVy (x y : Reg)                 -- 8XY7
  | shlVx (x y : Reg)                    -- 8XYE, y encoded but not read (R105)
  | sneVxVy (x y : Reg)                  -- 9XY0
  | ldINnn (nnn : Addr12)                -- ANNN
  | jpV0 (nnn : Addr12)                  -- BNNN
  | rndVxNn (x : Reg) (nn : Byte)        -- CXNN
  | drw (x y : Reg) (n : Nat)            -- DXYN
  | skp (x : Reg)                        -- EX9E
  | sknp (x : Reg)                       -- EXA1
  | ldVxDt (x : Reg)                     -- FX07
  | ldVxK (x : Reg)                      -- FX0A
  | ldDtVx (x : Reg)                     -- FX15
  | ldStVx (x : Reg)                     -- FX18
  | addIVx (x : Reg)                     -- FX1E
  | ldFVx (x : Reg)                      -- FX29
  | ldBVx (x : Reg)                      -- FX33
  | ldMiVx (x : Reg)                     -- FX55
  | ldVxMi (x : Reg)                     -- FX65
  deriving DecidableEq, Repr

end Sys2Proof
end

