-- ==== Sys2Proof/WellFormed.lean ====
section
/-! DEFINITION. The check that the types of Syntax.lean do not make themselves: the row count of DXYN fits its
4-bit field. -/

namespace Sys2Proof

/-- An instruction that has an encoding. The register, literal and address fields have the width of their types; the
row count N is a number and must fit w[3:0] (30_encoding.md R103). N = 0 is well-formed: it decodes (R110). -/
def Instr.wellFormed : Instr → Bool
  | .cls | .ret => true
  | .jp _ | .call _ | .ldINnn _ | .jpV0 _ => true
  | .seVxNn _ _ | .sneVxNn _ _ | .ldVxNn _ _ | .addVxNn _ _ | .rndVxNn _ _ => true
  | .seVxVy _ _ | .ldVxVy _ _ | .orVxVy _ _ | .andVxVy _ _ | .xorVxVy _ _ => true
  | .addVxVy _ _ | .subVxVy _ _ | .shrVx _ _ | .subnVxVy _ _ | .shlVx _ _ | .sneVxVy _ _ => true
  | .drw _ _ n => decide (n < 16)
  | .skp _ | .sknp _ | .ldVxDt _ | .ldVxK _ | .ldDtVx _ | .ldStVx _ => true
  | .addIVx _ | .ldFVx _ | .ldBVx _ | .ldMiVx _ | .ldVxMi _ => true

end Sys2Proof
end

