-- ==== Sys2Proof/Decode.lean ====
section
/-! DEFINITION. The instruction decoder, total on every word and on any bytes, and the encoder
(30_encoding.md R100 to R110). -/

namespace Sys2Proof

/-- n1 = w[15:12] (30_encoding.md R102). -/
def nibble1 (w : Half) : BitVec 4 := w.extractLsb' 12 4

/-- n2 = w[11:8] (30_encoding.md R102). -/
def nibble2 (w : Half) : BitVec 4 := w.extractLsb' 8 4

/-- n3 = w[7:4] (30_encoding.md R102). -/
def nibble3 (w : Half) : BitVec 4 := w.extractLsb' 4 4

/-- n4 = w[3:0] (30_encoding.md R102). -/
def nibble4 (w : Half) : BitVec 4 := w.extractLsb' 0 4

/-- X = w[11:8], a register index (30_encoding.md R103). -/
def fieldX (w : Half) : Reg := (nibble2 w).toFin

/-- Y = w[7:4], a register index (30_encoding.md R103). -/
def fieldY (w : Half) : Reg := (nibble3 w).toFin

/-- N = w[3:0], the sprite height of DXYN (30_encoding.md R103). -/
def fieldN (w : Half) : Nat := (nibble4 w).toNat

/-- NN = w[7:0] (30_encoding.md R103). -/
def fieldNN (w : Half) : Byte := w.extractLsb' 0 8

/-- NNN = w[11:0] (30_encoding.md R103). -/
def fieldNNN (w : Half) : Addr12 := w.extractLsb' 0 12

/-- Rows 1 and 2 of R106: of the words 0x0NNN only 00E0 and 00EE decode (R109). -/
def decode0 (w : Half) : Option Instr :=
  match (fieldNNN w).toNat with
  | 0x0E0 => some .cls
  | 0x0EE => some .ret
  | _ => none

/-- Rows 10 to 18 of R106: the function is w[3:0]. -/
def decode8 (w : Half) : Option Instr :=
  match (nibble4 w).toNat with
  | 0x0 => some (.ldVxVy (fieldX w) (fieldY w))
  | 0x1 => some (.orVxVy (fieldX w) (fieldY w))
  | 0x2 => some (.andVxVy (fieldX w) (fieldY w))
  | 0x3 => some (.xorVxVy (fieldX w) (fieldY w))
  | 0x4 => some (.addVxVy (fieldX w) (fieldY w))
  | 0x5 => some (.subVxVy (fieldX w) (fieldY w))
  | 0x6 => some (.shrVx (fieldX w) (fieldY w))
  | 0x7 => some (.subnVxVy (fieldX w) (fieldY w))
  | 0xE => some (.shlVx (fieldX w) (fieldY w))
  | _ => none

/-- Rows 24 and 25 of R106: the function is w[7:0]. -/
def decodeE (w : Half) : Option Instr :=
  match (fieldNN w).toNat with
  | 0x9E => some (.skp (fieldX w))
  | 0xA1 => some (.sknp (fieldX w))
  | _ => none

/-- Rows 26 to 34 of R106: the function is w[7:0]. -/
def decodeF (w : Half) : Option Instr :=
  match (fieldNN w).toNat with
  | 0x07 => some (.ldVxDt (fieldX w))
  | 0x0A => some (.ldVxK (fieldX w))
  | 0x15 => some (.ldDtVx (fieldX w))
  | 0x18 => some (.ldStVx (fieldX w))
  | 0x1E => some (.addIVx (fieldX w))
  | 0x29 => some (.ldFVx (fieldX w))
  | 0x33 => some (.ldBVx (fieldX w))
  | 0x55 => some (.ldMiVx (fieldX w))
  | 0x65 => some (.ldVxMi (fieldX w))
  | _ => none

/-- `Decode(w)` (30_encoding.md R106, R107): the one row that matches, or `none`, a decode failure (R108). -/
def decodeWord (w : Half) : Option Instr :=
  match (nibble1 w).toNat with
  | 0x0 => decode0 w
  | 0x1 => some (.jp (fieldNNN w))
  | 0x2 => some (.call (fieldNNN w))
  | 0x3 => some (.seVxNn (fieldX w) (fieldNN w))
  | 0x4 => some (.sneVxNn (fieldX w) (fieldNN w))
  | 0x5 => if nibble4 w = 0 then some (.seVxVy (fieldX w) (fieldY w)) else none
  | 0x6 => some (.ldVxNn (fieldX w) (fieldNN w))
  | 0x7 => some (.addVxNn (fieldX w) (fieldNN w))
  | 0x8 => decode8 w
  | 0x9 => if nibble4 w = 0 then some (.sneVxVy (fieldX w) (fieldY w)) else none
  | 0xA => some (.ldINnn (fieldNNN w))
  | 0xB => some (.jpV0 (fieldNNN w))
  | 0xC => some (.rndVxNn (fieldX w) (fieldNN w))
  | 0xD => some (.drw (fieldX w) (fieldY w) (fieldN w))
  | 0xE => decodeE w
  | 0xF => decodeF w
  | _ => none

/-- Why bytes do not decode. -/
inductive DecodeError where
  /-- Fewer than the two bytes every instruction has (30_encoding.md R100). -/
  | truncated
  /-- The word matches no row of the table (30_encoding.md R108). -/
  | notInTable (w : Half)
  deriving DecidableEq, Repr

/-- The word of two bytes in program order, big-endian: `w = hi ++ lo` (30_encoding.md R101, 20_memory.md R78). -/
def wordOfBytes (hi lo : Byte) : Half := hi ++ lo

/-- The byte stored at the lower address, w[15:8] (20_memory.md R78). -/
def hiByte (w : Half) : Byte := w.extractLsb' 8 8

/-- The byte stored at the higher address, w[7:0] (20_memory.md R78). -/
def loByte (w : Half) : Byte := w.extractLsb' 0 8

/-- The instruction at the head of any bytes, with the bytes after it: a decoder always consumes exactly 2 bytes
(30_encoding.md R100). -/
def decodeBytes : List Byte → Except DecodeError (Instr × List Byte)
  | hi :: lo :: rest =>
    match decodeWord (wordOfBytes hi lo) with
    | some i => .ok (i, rest)
    | none => .error (.notInTable (wordOfBytes hi lo))
  | _ => .error .truncated

/-- Format A: `oooo aaaa aaaa aaaa` (30_encoding.md R104). -/
def formatA (op : BitVec 4) (nnn : Addr12) : Half := op ++ nnn

/-- Format XK: `oooo xxxx kkkk kkkk` (30_encoding.md R104). -/
def formatXK (op : BitVec 4) (x : Reg) (nn : Byte) : Half := op ++ (BitVec.ofFin x ++ nn : BitVec 12)

/-- Formats XYF and XYN: `oooo xxxx yyyy ffff` (30_encoding.md R104). -/
def formatXYF (op : BitVec 4) (x y : Reg) (f : BitVec 4) : Half :=
  op ++ (BitVec.ofFin x ++ (BitVec.ofFin y ++ f : BitVec 8) : BitVec 12)

/-- The word of an instruction, from the patterns of 30_encoding.md R104 and R106. A row count that does not fit its
field is cut to it; `Instr.wellFormed` refuses such an instruction. -/
def encode : Instr → Half
  | .cls => 0x00E0
  | .ret => 0x00EE
  | .jp nnn => formatA 0x1 nnn
  | .call nnn => formatA 0x2 nnn
  | .seVxNn x nn => formatXK 0x3 x nn
  | .sneVxNn x nn => formatXK 0x4 x nn
  | .seVxVy x y => formatXYF 0x5 x y 0x0
  | .ldVxNn x nn => formatXK 0x6 x nn
  | .addVxNn x nn => formatXK 0x7 x nn
  | .ldVxVy x y => formatXYF 0x8 x y 0x0
  | .orVxVy x y => formatXYF 0x8 x y 0x1
  | .andVxVy x y => formatXYF 0x8 x y 0x2
  | .xorVxVy x y => formatXYF 0x8 x y 0x3
  | .addVxVy x y => formatXYF 0x8 x y 0x4
  | .subVxVy x y => formatXYF 0x8 x y 0x5
  | .shrVx x y => formatXYF 0x8 x y 0x6
  | .subnVxVy x y => formatXYF 0x8 x y 0x7
  | .shlVx x y => formatXYF 0x8 x y 0xE
  | .sneVxVy x y => formatXYF 0x9 x y 0x0
  | .ldINnn nnn => formatA 0xA nnn
  | .jpV0 nnn => formatA 0xB nnn
  | .rndVxNn x nn => formatXK 0xC x nn
  | .drw x y n => formatXYF 0xD x y (BitVec.ofNat 4 n)
  | .skp x => formatXK 0xE x 0x9E
  | .sknp x => formatXK 0xE x 0xA1
  | .ldVxDt x => formatXK 0xF x 0x07
  | .ldVxK x => formatXK 0xF x 0x0A
  | .ldDtVx x => formatXK 0xF x 0x15
  | .ldStVx x => formatXK 0xF x 0x18
  | .addIVx x => formatXK 0xF x 0x1E
  | .ldFVx x => formatXK 0xF x 0x29
  | .ldBVx x => formatXK 0xF x 0x33
  | .ldMiVx x => formatXK 0xF x 0x55
  | .ldVxMi x => formatXK 0xF x 0x65

/-- The word of an instruction of at most `nbits` bits `w`, numbered as opcode_table.json numbers them: one 16-bit
word, the bits from `nbits` on zero. -/
def tableWord (nbits w : Nat) : Half := BitVec.ofNat 16 (w % 2 ^ nbits)

/-- The instruction the decoder reads when the word of `nbits` bits `w` is laid out in memory, high byte first. -/
def decodeTableWord (nbits w : Nat) : Option Instr :=
  match decodeBytes [hiByte (tableWord nbits w), loByte (tableWord nbits w)] with
  | .ok (i, _) => some i
  | .error _ => none

end Sys2Proof
end

