-- ==== Sys2Proof/Config.lean ====
section
/-! DEFINITION. What is fixed for the machine, and its free values: constants without a body, so that no proof can
see what they are (00_scope.md R9, R12 to R14). -/

namespace Sys2Proof

/-- The parameter `FONT`: the 80 bytes of cells 0x000 to 0x04F (00_scope.md R12). -/
abbrev Font := Vector Byte 80

/-- The parameter `DRAW_ZERO_HEIGHT`: what DXYN does when N = 0 (00_scope.md R13, 43_display.md R252). -/
inductive DrawZeroHeight where
  | fault
  | empty
  deriving DecidableEq, Repr

namespace Config

/-- Display width (00_scope.md R9, R11). -/
def dispWidth : Nat := 64

/-- Display height (00_scope.md R9, R11). -/
def dispHeight : Nat := 32

/-- The only load base (00_scope.md R9, 70_reset_and_hazards.md R384). -/
def loadBase : Nat := 0x200

/-- The longest program, `0x200 + L ≤ 4096` (70_reset_and_hazards.md R385). -/
def maxProgram : Nat := 0xE00

/-- The spec's default of `DRAW_ZERO_HEIGHT` (00_scope.md R13). DESIGN CHOICE: State.reset takes it, log entry 4. -/
def drawZeroHeight : DrawZeroHeight := .fault

/-- Free value: the `FONT` given to the reset port (00_scope.md R12). DESIGN CHOICE, log entry 3. -/
opaque font : Font

/-- Free value: the clock reading `t0` given to the reset port (10_state.md R45). DESIGN CHOICE, log entry 7. -/
opaque t0 : Nat

/-- Free value: the clock reading given to step `n`, in nanoseconds, when no schedule says otherwise
(40_step.md R131). DESIGN CHOICE, log entry 1. -/
opaque freeNow : Nat → Nat

/-- Free value: the random byte given to step `n` (40_step.md R131). DESIGN CHOICE, log entry 1. -/
opaque freeRnd : Nat → Byte

/-- Free value: the draw of step `n` among several press edges (45_timers_keypad.md R327).
DESIGN CHOICE, log entries 1 and 16. -/
opaque freePick : Nat → Nat

/-- Free value: the key writes the host makes before step `n` (45_timers_keypad.md R319).
DESIGN CHOICE, log entry 2. -/
opaque freeKeyWrites : Nat → List (KeyIdx × Bool)

end Config

end Sys2Proof
end

