-- ==== Sys2Proof/Machine/State.lean ====
section
/-! DEFINITION. The state of the Swift-8 CORE as plain data: the tuple of 10_state.md R30, the parameters and the
port values a step reads, and the state after reset. -/

namespace Sys2Proof.Machine

/-- The fatal conditions of 60_exceptions.md R343, with the value each records. A fault is TAKEN: the step answers a
next state whose mode is `faulted r` (60_exceptions.md R344, `State.enterFault`; log entry 5), so no constructor ends
a run. Each is safe: the spec states the condition and the whole state it leaves. -/
inductive Fault where
  /-- Fetch with pc > 0xFFE, or a new pc > 0xFFF (40_step.md R133, R136). Safe. -/
  | pcOutOfRange (a : Nat)
  /-- DXYN, FX33, FX55, FX65 above 0xFFF; the lowest such address (20_memory.md R74 to R76). Safe. -/
  | memOutOfRange (a : Nat)
  /-- FX33, FX55 into 0x000..0x04F; the lowest such address (20_memory.md R75). Safe. -/
  | fontWrite (a : Nat)
  /-- 2NNN with sp = 16 (41_control_flow.md R162). Safe. -/
  | stackOverflow
  /-- 00EE with sp = 0 (41_control_flow.md R161). Safe. -/
  | stackUnderflow
  /-- FX1E with I + VX > 0xFFF; the sum (44_index_memory.md R274). Safe. -/
  | indexOutOfRange (t : Nat)
  /-- EX9E, EXA1 with VX > 0x0F; the value (45_timers_keypad.md R316). Safe. -/
  | keyIndexOutOfRange (v : Byte)
  /-- DXYN with N = 0 under `DRAW_ZERO_HEIGHT = fault` (43_display.md R252). Safe. -/
  | spriteHeightZero
  deriving DecidableEq, Repr

/-- What is refused. `notModelled` belongs to exec's arms; the others are actions of the host that break its contract
and have no meaning (60_exceptions.md R349). All are safe. -/
inductive Refusal where
  /-- An instruction without a meaning; no arm of exec raises it. Safe. -/
  | notModelled (mnemonic : String)
  /-- `setKey` with k > 0xF (45_timers_keypad.md R318). Safe. -/
  | keyIndexRefused (k : Nat)
  /-- `pixelAt` with x ≥ 64 or y ≥ 32 (43_display.md R243). Safe. -/
  | pixelRefused (x y : Nat)
  /-- A load of more than 0xE00 bytes (70_reset_and_hazards.md R385). Safe. -/
  | programTooLong (length : Nat)
  /-- A second load, or a load after the first step (70_reset_and_hazards.md R386). Safe. -/
  | loadTooLate
  deriving DecidableEq, Repr

/-- The framebuffer, `disp[x][y]` with x in 0..63 and y in 0..31; true is a set pixel (10_state.md R40). -/
abbrev Display := Vector (Vector Bool 32) 64

/-- The 16 key flags; true means pressed (10_state.md R41). -/
abbrev Keys := Vector Bool 16

/-- Memory as a list of cells, addresses strictly rising, no cell equal to what an unlisted address reads as
(`Memory.wf`; log entry 11). -/
abbrev Memory := List Host.Cell

/-- 10_state.md R42. -/
inductive Mode where
  | running
  /-- An FX0A at pc waits: `x` receives the key, `prev` is the sample of the previous step. -/
  | awaitingKey (x : Reg) (prev : Keys)
  | faulted (r : Fault)
  deriving DecidableEq, Repr

/-- What a step returns (40_step.md R131, 60_exceptions.md R342). -/
inductive StepResult where
  | ok
  | decodeFailure
  | fault (r : Fault)
  deriving DecidableEq, Repr

/-- What the host does between one step and the next: its `setKey` calls, oldest first, and the inputs it gives the
next step (00_scope.md R8, 45_timers_keypad.md R319). DESIGN CHOICE, log entry 2. -/
structure HostTurn where
  keyWrites : List (KeyIdx × Bool)
  now       : Nat
  rnd       : Byte
  keyPick   : Nat
  deriving DecidableEq, Repr

/-- The core's state (10_state.md R30), the parameters (00_scope.md R12, R13) and the values at the core's ports
(00_scope.md R8). -/
structure State where
  /-- Memory, 0x000 to 0xFFF (20_memory.md R70). -/
  mem            : Memory
  /-- V0 to VF (10_state.md R31). -/
  V              : Vector Byte 16
  /-- The index register (10_state.md R35). -/
  I              : Half
  /-- The program counter (10_state.md R36). -/
  pc             : Half
  /-- The call stack (10_state.md R37). -/
  stack          : Vector Half 16
  /-- The entries in use, 0 to 16 (10_state.md R37). -/
  sp             : Fin 17
  /-- The delay timer (10_state.md R38). -/
  dt             : Byte
  /-- The sound timer (10_state.md R38). -/
  st             : Byte
  /-- The framebuffer (10_state.md R40). -/
  disp           : Display
  /-- The keypad flags (10_state.md R41). -/
  keys           : Keys
  /-- The clock reading of the last tick, in nanoseconds (10_state.md R39). -/
  lastTick       : Nat
  /-- The mode (10_state.md R42). -/
  mode           : Mode
  /-- `FONT`, the contents of 0x000..0x04F since reset (00_scope.md R12). DESIGN CHOICE, log entry 3. -/
  font           : Font
  /-- `DRAW_ZERO_HEIGHT` (00_scope.md R13). DESIGN CHOICE, log entry 4. -/
  drawZeroHeight : DrawZeroHeight
  /-- Step port: the clock reading of the coming step (40_step.md R131). DESIGN CHOICE, log entry 1. -/
  now            : Nat
  /-- Step port: the random byte of the coming step (40_step.md R131). DESIGN CHOICE, log entry 1. -/
  rnd            : Byte
  /-- The coming step's draw among several press edges (45_timers_keypad.md R327). DESIGN CHOICE, log entry 16. -/
  keyPick        : Nat
  /-- Step port: what the latest step returned, none before the first. DESIGN CHOICE, log entry 6. -/
  result         : Option StepResult
  /-- The host's turns after the coming steps, the next one first. DESIGN CHOICE, log entry 2. -/
  schedule       : List HostTurn
  /-- Steps taken since reset; the counter of the free values. DESIGN CHOICE, log entries 2 and 10. -/
  stepNo         : Nat
  /-- Whether the load port was used since reset. DESIGN CHOICE, log entry 10. -/
  loaded         : Bool
  deriving DecidableEq, Repr

/-- The reset port: every element at its value of 10_state.md R45 (70_reset_and_hazards.md R380). It leaves any mode,
`faulted` among them, and reads nothing of the old state. The pins hold the free values of the first step. -/
def State.resetPort (t0 : Nat) (font : Font) (drawZeroHeight : DrawZeroHeight) : State where
  mem := []
  V := Vector.replicate 16 0
  I := 0
  pc := 0x200
  stack := Vector.replicate 16 0
  sp := 0
  dt := 0
  st := 0
  disp := Vector.replicate 64 (Vector.replicate 32 false)
  keys := Vector.replicate 16 false
  lastTick := t0
  mode := .running
  font := font
  drawZeroHeight := drawZeroHeight
  now := Config.freeNow 0
  rnd := Config.freeRnd 0
  keyPick := Config.freePick 0
  result := none
  schedule := []
  stepNo := 0
  loaded := false

/-- The machine right after reset: the reset port given the free `t0` and `FONT` and the spec's default of
`DRAW_ZERO_HEIGHT` (log entries 3, 4, 7). -/
def State.reset : State := State.resetPort Config.t0 Config.font Config.drawZeroHeight

end Sys2Proof.Machine
end

