-- ==== Sys2Proof/Machine/Ops.lean ====
section
/-! DEFINITION. The shared operations: memory, registers, the call stack, taking a fault, ending an instruction with a
next-pc case, the timer tick. -/

namespace Sys2Proof.Machine

/-- What every meaning answers. -/
abbrev Result := Host.Outcome State Fault Refusal

/-! ## Memory (20_memory.md) -/

/-- What an unlisted address reads as: the contents after reset, `FONT` in 0x000..0x04F and 0x00 elsewhere
(10_state.md R45). -/
def resetContents (font : Font) (a : Nat) : Byte :=
  if h : a < 80 then font[a] else 0

/-- The byte at `a`. -/
def Memory.read (font : Font) : Memory → Nat → Byte
  | [], a => resetContents font a
  | (b, w) :: m, a => if a = b then w else Memory.read font m a

/-- Write `v` at `a`, keeping the canonical form: a cell equal to what an unlisted address reads as is not listed. -/
def Memory.write (font : Font) : Memory → Nat → Byte → Memory
  | [], a, v => if v = resetContents font a then [] else [(a, v)]
  | (b, w) :: m, a, v =>
    if a < b then if v = resetContents font a then (b, w) :: m else (a, v) :: (b, w) :: m
    else if a = b then if v = resetContents font a then m else (a, v) :: m
    else (b, w) :: Memory.write font m a v

/-- The canonical form from address `lo` on. -/
def Memory.wfFrom (font : Font) : Nat → Memory → Bool
  | _, [] => true
  | lo, (a, v) :: m => decide (lo ≤ a) && decide (v ≠ resetContents font a) && Memory.wfFrom font (a + 1) m

/-- The canonical form: addresses strictly rising, no cell equal to what an unlisted address reads as. -/
def Memory.wf (font : Font) (m : Memory) : Bool := Memory.wfFrom font 0 m

/-- `mem[a]`. -/
def State.byte (s : State) (a : Nat) : Byte := s.mem.read s.font a

/-- `mem[a] <- v`, without the checks of R75. -/
def State.storeByte (s : State) (a : Nat) (v : Byte) : State := { s with mem := s.mem.write s.font a v }

/-- `mem[a + k] <- bs[k]` for every k, lowest address first. -/
def State.storeBytes (s : State) (a : Nat) : List Byte → State
  | [] => s
  | b :: bs => (s.storeByte a b).storeBytes (a + 1) bs

/-- The `n` bytes from `a` on. -/
def State.bytesFrom (s : State) (a n : Nat) : List Byte := (List.range n).map fun k => s.byte (a + k)

/-- The check of `MemRead(a, 1)` (20_memory.md R74). -/
def readFault (a : Nat) : Option Fault :=
  if 0xFFF < a then some (.memOutOfRange a) else none

/-- The checks of `MemWrite(a, 1, v)` (20_memory.md R75). -/
def writeFault (a : Nat) : Option Fault :=
  if 0xFFF < a then some (.memOutOfRange a)
  else if a ≤ 0x04F then some (.fontWrite a)
  else none

/-- The fault of the lowest failing address of `a .. a + n - 1` (20_memory.md R76). -/
def rangeFault (check : Nat → Option Fault) (a : Nat) : Nat → Option Fault
  | 0 => none
  | n + 1 =>
    match check a with
    | some r => some r
    | none => rangeFault check (a + 1) n

/-- `Fetch(pc)`, or none where it raises `PcOutOfRange(pc)` (30_encoding.md R101). -/
def State.fetch (s : State) : Option Half :=
  if 0xFFE < s.pc.toNat then none
  else some (wordOfBytes (s.byte s.pc.toNat) (s.byte (s.pc.toNat + 1)))

/-! ## Registers (10_state.md R31) -/

/-- `V[x]`. -/
def State.v (s : State) (x : Reg) : Byte := s.V[x.val]

/-- `V[x] <- b`. -/
def State.setV (s : State) (x : Reg) (b : Byte) : State := { s with V := s.V.set x.val b }

/-- `VF <- b` (00_scope.md R17). -/
def State.setVF (s : State) (b : Byte) : State := s.setV 15 b

/-- `V[k] <- mem[a + k]` for k = 0 .. x; the other registers keep their value. -/
def State.loadRegs (s : State) (x : Reg) (a : Nat) : State :=
  { s with V := Vector.ofFn fun k : Fin 16 => if k.val ≤ x.val then s.byte (a + k.val) else s.V[k.val] }

/-- V0 to VX. -/
def State.regsTo (s : State) (x : Reg) : List Byte := s.V.toList.take (x.val + 1)

/-! ## Call stack (10_state.md R37) -/

/-- The state with `r` stored at `stack[sp]` and sp incremented, or none when sp = 16. -/
def State.push (s : State) (r : Half) : Option State :=
  if h : s.sp.val < 16 then
    some { s with stack := s.stack.set s.sp.val r, sp := ⟨s.sp.val + 1, by omega⟩ }
  else none

/-- The state with sp decremented and the entry then at `stack[sp]`, which keeps its value, or none when sp = 0. -/
def State.pop (s : State) : Option (State × Half) :=
  if h : s.sp.val = 0 then none
  else some ({ s with sp := ⟨s.sp.val - 1, by omega⟩ }, s.stack[s.sp.val - 1])

/-! ## Taking a fault (60_exceptions.md R344)

There is no return from a fault (R348): only the reset port, `State.resetPort`, leaves mode `faulted` (R345). -/

/-- Fault entry: the mode is written and nothing else; the step returns `Fault(r)`. The pc keeps the address of the
instruction that faulted (60_exceptions.md R344). -/
def State.enterFault (s : State) (r : Fault) : State :=
  { s with mode := .faulted r, result := some (.fault r) }

/-- `raise Fault(r)` in a meaning. -/
def State.raise (s : State) (r : Fault) : Result := .next (s.enterFault r)

/-! ## Next pc (40_step.md R135, R136) -/

/-- The four next-pc cases (40_step.md R135). -/
inductive NextPc where
  | advance
  | skip
  | transfer (t : Nat)
  | stay
  deriving DecidableEq, Repr

/-- The new pc of a case, on unbounded naturals (40_step.md R135). -/
def NextPc.target (pc : Nat) : NextPc → Nat
  | .advance => pc + 2
  | .skip => pc + 4
  | .transfer t => t
  | .stay => pc

/-- End a step that began in `s` and wrote `s'`: fault out of `s` when the new pc is above 0xFFF, else write the pc and
return `res` (40_step.md R136, R139). -/
def State.finish (s s' : State) (npc : Nat) (res : StepResult) : State :=
  if 0xFFF < npc then s.enterFault (.pcOutOfRange npc)
  else { s' with pc := BitVec.ofNat 16 npc, result := some res }

/-- End an instruction that began in `s` and wrote `s'` with a next-pc case. -/
def State.complete (s s' : State) (c : NextPc) : Result := .next (s.finish s' (c.target s.pc.toNat) .ok)

/-! ## Timer tick (45_timers_keypad.md R301) -/

/-- A timer decremented toward zero, never below it (10_state.md R38). -/
def timerDown (t : Byte) : Byte := if t = 0 then 0 else t - 1

/-- More than 1/60 s has passed since the last tick, by the clock reading of the step (45_timers_keypad.md R301). -/
def State.tickDue (s : State) : Bool :=
  decide (s.lastTick < s.now) && decide (1000000000 < 60 * (s.now - s.lastTick))

/-- `Tick(s, now)` (45_timers_keypad.md R301). -/
def State.tick (s : State) : State :=
  { s with
    dt := if s.tickDue then timerDown s.dt else s.dt
    st := if s.tickDue then timerDown s.st else s.st
    lastTick := if s.tickDue then s.now else s.lastTick }

/-- The tick at the end of every step that does not fault (40_step.md R138). -/
def State.endStep (s : State) : State :=
  match s.mode with
  | .faulted _ => s
  | .running => s.tick
  | .awaitingKey _ _ => s.tick

end Sys2Proof.Machine
end

