-- ==== Sys2Proof/Machine/Flags.lean ====
section
/-! DEFINITION. The 8-bit results and every flag computation: carry, NOT borrow, the bits shifted out
(10_state.md R33, 42_alu.md R204 to R212). -/

namespace Sys2Proof.Machine

/-- A flag as the value of VF. -/
def flag (b : Bool) : Byte := if b then 1 else 0

/-- `(a + b) mod 256` (00_scope.md R15). -/
def add8 (a b : Byte) : Byte := BitVec.ofNat 8 ((a.toNat + b.toNat) % 256)

/-- `(a - b) mod 256` (00_scope.md R15). -/
def sub8 (a b : Byte) : Byte := BitVec.ofInt 8 ((a.toNat : Int) - (b.toNat : Int))

/-- 1 if the unsigned sum exceeds 255 (42_alu.md R207). -/
def carry (a b : Byte) : Byte := flag (decide (255 < a.toNat + b.toNat))

/-- 1 if `a - b` does not borrow, that is a ≥ b (42_alu.md R208, R210). -/
def notBorrow (a b : Byte) : Byte := flag (decide (b.toNat ≤ a.toNat))

/-- `a >> 1` (42_alu.md R209). -/
def shiftRight1 (a : Byte) : Byte := a >>> 1

/-- `(a << 1) mod 256` (42_alu.md R212). -/
def shiftLeft1 (a : Byte) : Byte := a <<< 1

/-- The bit shifted out at the right, `a[0]` (42_alu.md R209). -/
def lowBit (a : Byte) : Byte := flag (a.getLsbD 0)

/-- The bit shifted out at the left, `a[7]` (42_alu.md R212). -/
def highBit (a : Byte) : Byte := flag (a.getLsbD 7)

/-- The result to V[x] first, the flag to VF last, so that the flag wins when x = 0xF (42_alu.md R211). -/
def State.setResultFlag (s : State) (x : Reg) (r f : Byte) : State := (s.setV x r).setVF f

end Sys2Proof.Machine
end

