-- ==== Sys2Proof/Machine/Alu.lean ====
section
/-! DEFINITION. Register loads, arithmetic, logic, shifts and random (42_alu.md). -/

namespace Sys2Proof.Machine

/-- 6XNN (42_alu.md R201). -/
def execLdVxNn (x : Reg) (nn : Byte) (s : State) : Result :=
  s.complete (s.setV x nn) .advance

/-- 7XNN: no flag (42_alu.md R202). -/
def execAddVxNn (x : Reg) (nn : Byte) (s : State) : Result :=
  s.complete (s.setV x (add8 (s.v x) nn)) .advance

/-- 8XY0 (42_alu.md R203). -/
def execLdVxVy (x y : Reg) (s : State) : Result :=
  s.complete (s.setV x (s.v y)) .advance

/-- 8XY1: VF cleared (42_alu.md R204). -/
def execOrVxVy (x y : Reg) (s : State) : Result :=
  s.complete (s.setResultFlag x (s.v x ||| s.v y) 0) .advance

/-- 8XY2: VF cleared (42_alu.md R205). -/
def execAndVxVy (x y : Reg) (s : State) : Result :=
  s.complete (s.setResultFlag x (s.v x &&& s.v y) 0) .advance

/-- 8XY3: VF cleared (42_alu.md R206). -/
def execXorVxVy (x y : Reg) (s : State) : Result :=
  s.complete (s.setResultFlag x (s.v x ^^^ s.v y) 0) .advance

/-- 8XY4: VF is the carry (42_alu.md R207). -/
def execAddVxVy (x y : Reg) (s : State) : Result :=
  s.complete (s.setResultFlag x (add8 (s.v x) (s.v y)) (carry (s.v x) (s.v y))) .advance

/-- 8XY5: VX - VY, VF is NOT borrow (42_alu.md R208). -/
def execSubVxVy (x y : Reg) (s : State) : Result :=
  s.complete (s.setResultFlag x (sub8 (s.v x) (s.v y)) (notBorrow (s.v x) (s.v y))) .advance

/-- 8XY6: VX shifted right; the Y field is not read (42_alu.md R209). -/
def execShrVx (x _y : Reg) (s : State) : Result :=
  s.complete (s.setResultFlag x (shiftRight1 (s.v x)) (lowBit (s.v x))) .advance

/-- 8XY7: VY - VX, VF is NOT borrow (42_alu.md R210). -/
def execSubnVxVy (x y : Reg) (s : State) : Result :=
  s.complete (s.setResultFlag x (sub8 (s.v y) (s.v x)) (notBorrow (s.v y) (s.v x))) .advance

/-- 8XYE: VX shifted left; the Y field is not read (42_alu.md R212). -/
def execShlVx (x _y : Reg) (s : State) : Result :=
  s.complete (s.setResultFlag x (shiftLeft1 (s.v x)) (highBit (s.v x))) .advance

/-- CXNN: the step's random byte AND NN (42_alu.md R213). -/
def execRndVxNn (x : Reg) (nn : Byte) (s : State) : Result :=
  s.complete (s.setV x (s.rnd &&& nn)) .advance

end Sys2Proof.Machine
end

