-- ==== Sys2Proof/Machine/Operands.lean ====
section
/-! DEFINITION. The operand forms: an absolute address, V0 plus an offset, I-relative, the glyph address, a key index,
the decimal digits of a byte (30_encoding.md R105, 44_index_memory.md R272). -/

namespace Sys2Proof.Machine

/-- `zext_16(NNN)` (30_encoding.md R103). -/
def absolute (nnn : Addr12) : Half := nnn.setWidth 16

/-- `V0 + NNN` on unbounded naturals (41_control_flow.md R168). -/
def State.indexedByV0 (s : State) (nnn : Addr12) : Nat := (s.v 0).toNat + nnn.toNat

/-- The base of the I-relative mode (44_index_memory.md R272). -/
def State.indexBase (s : State) : Nat := s.I.toNat

/-- `I + V[x]` on unbounded naturals (44_index_memory.md R274). -/
def State.indexPlus (s : State) (x : Reg) : Nat := s.I.toNat + (s.v x).toNat

/-- `zext_16(v) * 5`, the address of the glyph of a digit, not masked (44_index_memory.md R277). -/
def glyphAddress (v : Byte) : Half := BitVec.ofNat 16 (v.toNat * 5)

/-- The key a register value selects: none above 0x0F (45_timers_keypad.md R316). -/
def keyIndex (v : Byte) : Option KeyIdx :=
  if h : v.toNat < 16 then some ⟨v.toNat, h⟩ else none

/-- Hundreds, tens and units of a byte (44_index_memory.md R278). -/
def decimalDigits (v : Byte) : List Byte :=
  [BitVec.ofNat 8 (v.toNat / 100), BitVec.ofNat 8 (v.toNat / 10 % 10), BitVec.ofNat 8 (v.toNat % 10)]

end Sys2Proof.Machine
end

