-- ==== Sys2Proof/Machine/Control.lean ====
section
/-! DEFINITION. Return, call, jumps and the register skips (41_control_flow.md). -/

namespace Sys2Proof.Machine

/-- The next-pc case of a skip (41_control_flow.md R160). -/
def skipIf (b : Bool) : NextPc := if b then .skip else .advance

/-- 00EE: pop; the popped entry is the address of the instruction after the call (41_control_flow.md R161). -/
def execRet (s : State) : Result :=
  match s.pop with
  | none => s.raise .stackUnderflow
  | some (s', t) => s.complete s' (.transfer t.toNat)

/-- 2NNN: push pc + 2, transfer to NNN (41_control_flow.md R162). -/
def execCall (nnn : Addr12) (s : State) : Result :=
  match s.push (s.pc + 2) with
  | none => s.raise .stackOverflow
  | some s' => s.complete s' (.transfer (absolute nnn).toNat)

/-- 1NNN (41_control_flow.md R163). -/
def execJp (nnn : Addr12) (s : State) : Result :=
  s.complete s (.transfer (absolute nnn).toNat)

/-- 3XNN (41_control_flow.md R164). -/
def execSeVxNn (x : Reg) (nn : Byte) (s : State) : Result :=
  s.complete s (skipIf (s.v x == nn))

/-- 4XNN (41_control_flow.md R165). -/
def execSneVxNn (x : Reg) (nn : Byte) (s : State) : Result :=
  s.complete s (skipIf (s.v x != nn))

/-- 5XY0 (41_control_flow.md R166). -/
def execSeVxVy (x y : Reg) (s : State) : Result :=
  s.complete s (skipIf (s.v x == s.v y))

/-- 9XY0 (41_control_flow.md R167). -/
def execSneVxVy (x y : Reg) (s : State) : Result :=
  s.complete s (skipIf (s.v x != s.v y))

/-- BNNN: the register is always V0 (41_control_flow.md R168). -/
def execJpV0 (nnn : Addr12) (s : State) : Result :=
  s.complete s (.transfer (s.indexedByV0 nnn))

end Sys2Proof.Machine
end

