-- ==== Sys2Proof/Machine/Display.lean ====
section
/-! DEFINITION. The framebuffer, the XOR sprite blitter, 00E0 and DXYN (43_display.md). -/

namespace Sys2Proof.Machine

/-- `pixelAt(x, y)` on reduced coordinates (43_display.md R242). -/
def Display.pixel (d : Display) (x : Fin 64) (y : Fin 32) : Bool := d[x.val][y.val]

/-- `disp[x][y] <- disp[x][y] ^ b` (43_display.md R244). -/
def Display.xorPixel (d : Display) (x : Fin 64) (y : Fin 32) (b : Bool) : Display :=
  d.set x.val (d[x.val].set y.val (d.pixel x y ^^ b))

/-- Every pixel off (43_display.md R242 `clear`). -/
def Display.clear : Display := Vector.replicate 64 (Vector.replicate 32 false)

/-- A display and whether a pixel was erased so far. -/
abbrev BlitAcc := Display × Bool

/-- One column of one sprite row: bit 7 - c of the row lands at ((x0 + c) mod 64, y mod 32)
(43_display.md R241, R244). -/
def blitColumn (row : Byte) (x0 y : Nat) (acc : BlitAcc) (c : Nat) : BlitAcc :=
  let b := row.getLsbD (7 - c)
  let px : Fin 64 := Fin.ofNat 64 (x0 + c)
  let py : Fin 32 := Fin.ofNat 32 y
  (acc.1.xorPixel px py b, acc.2 || (b && acc.1.pixel px py))

/-- The 8 columns of one sprite row at y. -/
def blitRow (row : Byte) (x0 y : Nat) (acc : BlitAcc) : BlitAcc :=
  (List.range 8).foldl (blitColumn row x0 y) acc

/-- The rows of a sprite, the first at y. -/
def blitRows (x0 : Nat) : List Byte → Nat → BlitAcc → BlitAcc
  | [], _, acc => acc
  | row :: rows, y, acc => blitRows x0 rows (y + 1) (blitRow row x0 y acc)

/-- `Blit(rows, x0, y0)`: the new framebuffer and whether any pixel was erased (43_display.md R244). -/
def blit (rows : List Byte) (x0 y0 : Nat) (d : Display) : BlitAcc := blitRows x0 rows y0 (d, false)

/-- 00E0 (43_display.md R249). -/
def execCls (s : State) : Result :=
  s.complete { s with disp := Display.clear } .advance

/-- The draw itself, coordinates and rows read from `s`; the collision flag is written to VF last
(43_display.md R250, R251). -/
def State.draw (s : State) (x y : Reg) (n : Nat) : State :=
  let b := blit (s.bytesFrom s.indexBase n) (s.v x).toNat (s.v y).toNat s.disp
  { s with disp := b.1 }.setVF (flag b.2)

/-- DXYN (43_display.md R250); N = 0 is governed by the parameter `DRAW_ZERO_HEIGHT` (R252). -/
def execDrw (x y : Reg) (n : Nat) (s : State) : Result :=
  if n = 0 then
    match s.drawZeroHeight with
    | .fault => s.raise .spriteHeightZero
    | .empty => s.complete (s.setVF 0) .advance
  else
    match rangeFault readFault s.indexBase n with
    | some r => s.raise r
    | none => s.complete (s.draw x y n) .advance

end Sys2Proof.Machine
end

