-- ==== Sys2Proof/Machine/IndexMemory.lean ====
section
/-! DEFINITION. The index register and the transfers between registers and memory (44_index_memory.md). No
instruction changes I as a side effect of an access (R273). -/

namespace Sys2Proof.Machine

/-- ANNN (44_index_memory.md R271). -/
def execLdINnn (nnn : Addr12) (s : State) : Result :=
  s.complete { s with I := absolute nnn } .advance

/-- FX1E: faults rather than write a value above 0xFFF; VF is not written (44_index_memory.md R274). -/
def execAddIVx (x : Reg) (s : State) : Result :=
  if 0xFFF < s.indexPlus x then s.raise (.indexOutOfRange (s.indexPlus x))
  else s.complete { s with I := BitVec.ofNat 16 (s.indexPlus x) } .advance

/-- FX29 (44_index_memory.md R277). -/
def execLdFVx (x : Reg) (s : State) : Result :=
  s.complete { s with I := glyphAddress (s.v x) } .advance

/-- FX33 (44_index_memory.md R278). -/
def execLdBVx (x : Reg) (s : State) : Result :=
  match rangeFault writeFault s.indexBase 3 with
  | some r => s.raise r
  | none => s.complete (s.storeBytes s.indexBase (decimalDigits (s.v x))) .advance

/-- FX55: V0 to VX inclusive (44_index_memory.md R279). -/
def execLdMiVx (x : Reg) (s : State) : Result :=
  match rangeFault writeFault s.indexBase (x.val + 1) with
  | some r => s.raise r
  | none => s.complete (s.storeBytes s.indexBase (s.regsTo x)) .advance

/-- FX65: V0 to VX inclusive (44_index_memory.md R280). -/
def execLdVxMi (x : Reg) (s : State) : Result :=
  match rangeFault readFault s.indexBase (x.val + 1) with
  | some r => s.raise r
  | none => s.complete (s.loadRegs x s.indexBase) .advance

end Sys2Proof.Machine
end

