-- ==== Sys2Proof/Machine/TimersKeypad.lean ====
section
/-! DEFINITION. The timer and keypad instructions and the key wait (45_timers_keypad.md). -/

namespace Sys2Proof.Machine

/-- FX07: the value before this step's tick (45_timers_keypad.md R306). -/
def execLdVxDt (x : Reg) (s : State) : Result :=
  s.complete (s.setV x s.dt) .advance

/-- FX15 (45_timers_keypad.md R307). -/
def execLdDtVx (x : Reg) (s : State) : Result :=
  s.complete { s with dt := s.v x } .advance

/-- FX18 (45_timers_keypad.md R308). -/
def execLdStVx (x : Reg) (s : State) : Result :=
  s.complete { s with st := s.v x } .advance

/-- EX9E: skip if the key in VX is pressed (45_timers_keypad.md R320). -/
def execSkp (x : Reg) (s : State) : Result :=
  match keyIndex (s.v x) with
  | none => s.raise (.keyIndexOutOfRange (s.v x))
  | some k => s.complete s (skipIf s.keys[k.val])

/-- EXA1: skip if the key in VX is not pressed (45_timers_keypad.md R321). -/
def execSknp (x : Reg) (s : State) : Result :=
  match keyIndex (s.v x) with
  | none => s.raise (.keyIndexOutOfRange (s.v x))
  | some k => s.complete s (skipIf (!s.keys[k.val]))

/-- FX0A, the entry step: the mode takes the current sample and the pc stays (45_timers_keypad.md R324). -/
def execLdVxK (x : Reg) (s : State) : Result :=
  s.complete { s with mode := .awaitingKey x s.keys } .stay

/-- The keys with a press edge, lowest first (45_timers_keypad.md R322). -/
def pressEdges (prev keys : Keys) : List KeyIdx :=
  (List.finRange 16).filter fun k => !prev[k.val] && keys[k.val]

/-- Any member of `k :: ks`: the draw `pick` chooses (45_timers_keypad.md R327; log entry 16). -/
def chooseKey (pick : Nat) (k : KeyIdx) (ks : List KeyIdx) : KeyIdx :=
  (k :: ks)[pick % (ks.length + 1)]'(Nat.mod_lt _ (Nat.succ_pos _))

/-- A step in mode `awaitingKey x prev`, before its tick: the new sample replaces `prev`, or a key is reported and the
pc moves past the FX0A (45_timers_keypad.md R325, R326, R328). -/
def State.waitStep (s : State) (x : Reg) (prev : Keys) : State :=
  match pressEdges prev s.keys with
  | [] => { s with mode := .awaitingKey x s.keys, result := some .ok }
  | k :: ks =>
    s.finish { s.setV x (BitVec.ofNat 8 (chooseKey s.keyPick k ks).val) with mode := .running }
      (s.pc.toNat + 2) .ok

end Sys2Proof.Machine
end

