-- ==== Sys2Proof/Machine/Ports.lean ====
section
/-! DEFINITION. The host's ports: keypad writes, the load port, the display and timer reads, the codes of the step
result, and the host's turn between two steps (00_scope.md R8, 60_exceptions.md R342, R349). The reset port is
`State.resetPort`. -/

namespace Sys2Proof.Machine

/-- `keys[k] <- pressed` (45_timers_keypad.md R318). -/
def State.putKey (s : State) (k : KeyIdx) (pressed : Bool) : State :=
  { s with keys := s.keys.set k.val pressed }

/-- The keypad write port `setKey(k, pressed)`, in any mode; k above 0xF is refused (45_timers_keypad.md R318). -/
def State.setKey (s : State) (k : Nat) (pressed : Bool) : Result :=
  if h : k < 16 then .next (s.putKey ⟨k, h⟩ pressed) else .refused (.keyIndexRefused k)

/-- The load port: at most 0xE00 bytes to 0x200 on, once, before the first step
(70_reset_and_hazards.md R384 to R386). -/
def State.load (s : State) (prog : List Byte) : Result :=
  if s.loaded ∨ s.stepNo ≠ 0 then .refused .loadTooLate
  else if Config.maxProgram < prog.length then .refused (.programTooLong prog.length)
  else .next { s.storeBytes Config.loadBase prog with loaded := true }

/-- The display read port: a pixel, or a refusal out of range (43_display.md R243). A read changes no state. -/
def State.pixelAt (s : State) (x y : Nat) : Except Refusal Bool :=
  if h : x < 64 ∧ y < 32 then .ok (s.disp.pixel ⟨x, h.1⟩ ⟨y, h.2⟩) else .error (.pixelRefused x y)

/-- The timer read port: the delay and the sound timer (45_timers_keypad.md R305). -/
def State.readTimers (s : State) : Byte × Byte := (s.dt, s.st)

/-- The codes of the fault reasons (60_exceptions.md R343). -/
def Fault.code : Fault → Nat
  | .pcOutOfRange _ => 1
  | .memOutOfRange _ => 2
  | .fontWrite _ => 3
  | .stackOverflow => 4
  | .stackUnderflow => 5
  | .indexOutOfRange _ => 6
  | .keyIndexOutOfRange _ => 7
  | .spriteHeightZero => 8

/-- The codes of the step result (60_exceptions.md R342). -/
def StepResult.code : StepResult → Nat
  | .ok => 0
  | .decodeFailure => 1
  | .fault _ => 2

/-- The host's turn before step `n` where no schedule says otherwise: free values (log entries 1, 2). -/
def freeTurn (n : Nat) : HostTurn where
  keyWrites := Config.freeKeyWrites n
  now := Config.freeNow n
  rnd := Config.freeRnd n
  keyPick := Config.freePick n

/-- What the host does after this step: its turn at the head of the schedule, or a free one. -/
def State.comingTurn (s : State) : HostTurn := s.schedule.headD (freeTurn (s.stepNo + 1))

/-- Key writes in order (45_timers_keypad.md R318, R319). -/
def writeKeys (keys : Keys) (ws : List (KeyIdx × Bool)) : Keys :=
  ws.foldl (fun ks w => ks.set w.1.val w.2) keys

/-- The host's turn between two steps: it writes the keypad and sets the pins of the next step, and nothing else of
the core (60_exceptions.md R347; log entry 2). -/
def State.hostTurn (s : State) : State :=
  { s with
    keys := writeKeys s.keys s.comingTurn.keyWrites
    now := s.comingTurn.now
    rnd := s.comingTurn.rnd
    keyPick := s.comingTurn.keyPick
    schedule := s.schedule.tail
    stepNo := s.stepNo + 1 }

/-- What the host may do to the core between steps, beside reading (00_scope.md R8). -/
inductive HostAction where
  | reset (t0 : Nat) (font : Font) (drawZeroHeight : DrawZeroHeight)
  | load (prog : List Byte)
  | setKey (k : Nat) (pressed : Bool)
  deriving DecidableEq, Repr

/-- One action of the host. Reset may be offered at any time (70_reset_and_hazards.md R380, R382). -/
def hostAct : HostAction → State → Result
  | .reset t0 font dz, _ => .next (State.resetPort t0 font dz)
  | .load prog, s => s.load prog
  | .setKey k pressed, s => s.setKey k pressed

end Sys2Proof.Machine
end

