-- ==== Sys2Proof/Machine/Cycle.lean ====
section
/-! DEFINITION. The step cycle: fetch, decode, execute, pc, tick (40_step.md R140), and the word a host places for
the next fetch. -/

namespace Sys2Proof.Machine

/-- A step whose word does not decode, before its tick: the pc advances by 2 and nothing else is written
(40_step.md R137). -/
def State.decodeFailure (s : State) : State := s.finish s (s.pc.toNat + 2) .decodeFailure

/-- A step in mode `running` (40_step.md R133 to R138). -/
def runStep (s : State) : Result :=
  match s.fetch with
  | none => s.raise (.pcOutOfRange s.pc.toNat)
  | some w =>
    match decodeWord w with
    | none => .next s.decodeFailure.endStep
    | some i =>
      match exec i s with
      | .next t => .next t.endStep
      | .fault r => .fault r
      | .refused r => .refused r

/-- One step of the core, `Step(s, now, rnd)`, the inputs being the pins of `s` (40_step.md R132, R140, R141). -/
def coreStep (s : State) : Result :=
  match s.mode with
  | .faulted r => .next { s with result := some (.fault r) }
  | .awaitingKey x prev => .next (s.waitStep x prev).endStep
  | .running => runStep s

/-- One step and then the host's turn before the next. -/
def coreStepThenHost (s : State) : Result :=
  match coreStep s with
  | .next t => .next t.hostTurn
  | .fault r => .fault r
  | .refused r => .refused r

/-- Where the next step fetches: the pc, or the entry point where nothing can be fetched at the pc. -/
def State.fetchAddress (s : State) : Nat := if 0xFFE < s.pc.toNat then 0x200 else s.pc.toNat

/-- `s` in mode `running` with the word `w` stored, high byte first, where the next step fetches (log entry 9). -/
def State.placeWord (s : State) (w : Half) : State :=
  ({ s with mode := .running, pc := BitVec.ofNat 16 s.fetchAddress }.storeBytes s.fetchAddress [hiByte w, loByte w])

end Sys2Proof.Machine
end

