-- ==== Sys2Proof/Machine/Step.lean ====
section
/-! DEFINITION. The step the host runs, and the placing of a word for its next fetch. -/

namespace Sys2Proof.Machine

/-- One step of the core (40_step.md R130) and the host's turn before the next (log entry 2). -/
def step (s : State) : Host.Outcome State Fault Refusal := coreStepThenHost s

/-- `s` with the instruction of `nbits` bits `w` stored where the next step fetches (log entry 9). -/
def State.withFetchWord (s : State) (nbits w : Nat) : State := s.placeWord (tableWord nbits w)

end Sys2Proof.Machine
end

