-- ==== Sys2Proof/Safety.lean ====
section
/-! DEFINITION. What claims are written in: a state that has not faulted, the invariant of the reachable states, the
states a session reaches, and the frames. -/

namespace Sys2Proof.Machine

/-- The machine has not met a fatal condition (60_exceptions.md R343, R345). -/
def State.Safe (s : State) : Prop := ∀ r, s.mode ≠ .faulted r

/-- Every listed cell lies above the font region and within memory (20_memory.md R70, R77). -/
def cellsInPlace (m : Memory) : Prop := ∀ c ∈ m, 0x04F < c.1 ∧ c.1 ≤ 0xFFF

/-- What holds in every state reachable from reset by steps and host actions (10_state.md R46): pc and I within
memory, the font cells as given at reset, and an FX0A with the waiting register at the pc while a key is awaited. The
bounds of sp and of the pixels hold by their types. Memory keeps its canonical form (log entry 11), and no mode but
`running` is met before the first step (log entry 10). -/
structure State.Inv (s : State) : Prop where
  pcInMemory : s.pc.toNat ≤ 0xFFF
  indexInMemory : s.I.toNat ≤ 0xFFF
  canonical : s.mem.wf s.font = true
  inPlace : cellsInPlace s.mem
  waiting : ∀ x prev, s.mode = .awaitingKey x prev → s.fetch = some (encode (.ldVxK x))
  fresh : s.stepNo = 0 → s.mode = .running

/-- The states of a session: reset, then steps and host actions in any order (10_state.md R46, 70_reset_and_hazards.md
R387). -/
inductive Reachable : State → Prop where
  | reset (t0 : Nat) (font : Font) (dz : DrawZeroHeight) : Reachable (State.resetPort t0 font dz)
  | step {s t : State} : Reachable s → step s = .next t → Reachable t
  | host {s t : State} (a : HostAction) : Reachable s → hostAct a s = .next t → Reachable t

/-- The instructions that write the register V[r], VF as a flag included (10_state.md R33, R34). FX0A writes it at its
wake step, not at its entry step (45_timers_keypad.md R324, R326). -/
def writesReg (r : Reg) : Instr → Bool
  | .ldVxNn x _ | .addVxNn x _ | .rndVxNn x _ | .ldVxVy x _ | .ldVxDt x => decide (r = x)
  | .orVxVy x _ | .andVxVy x _ | .xorVxVy x _ | .addVxVy x _ | .subVxVy x _ => decide (r = x ∨ r = 15)
  | .shrVx x _ | .subnVxVy x _ | .shlVx x _ => decide (r = x ∨ r = 15)
  | .drw _ _ _ => decide (r = 15)
  | .ldVxMi x => decide (r.val ≤ x.val)
  | .cls | .ret | .jp _ | .call _ | .seVxNn _ _ | .sneVxNn _ _ | .seVxVy _ _ | .sneVxVy _ _ => false
  | .ldINnn _ | .jpV0 _ | .skp _ | .sknp _ | .ldVxK _ | .ldDtVx _ | .ldStVx _ => false
  | .addIVx _ | .ldFVx _ | .ldBVx _ | .ldMiVx _ => false

/-- The bytes an instruction stores: the address and the number of bytes, computed from the state it runs in with the
meaning's own `State.indexBase` (20_memory.md R72, R79). -/
def storedRange (s : State) : Instr → Option (Nat × Nat)
  | .ldBVx _ => some (s.indexBase, 3)
  | .ldMiVx x => some (s.indexBase, x.val + 1)
  | .cls | .ret | .jp _ | .call _ | .seVxNn _ _ | .sneVxNn _ _ | .seVxVy _ _ | .sneVxVy _ _ => none
  | .ldVxNn _ _ | .addVxNn _ _ | .rndVxNn _ _ | .ldVxVy _ _ | .orVxVy _ _ | .andVxVy _ _ => none
  | .xorVxVy _ _ | .addVxVy _ _ | .subVxVy _ _ | .shrVx _ _ | .subnVxVy _ _ | .shlVx _ _ => none
  | .ldINnn _ | .jpV0 _ | .drw _ _ _ | .skp _ | .sknp _ | .ldVxDt _ | .ldVxK _ | .ldDtVx _ => none
  | .ldStVx _ | .addIVx _ | .ldFVx _ | .ldVxMi _ => none

end Sys2Proof.Machine
end

