-- ==== Sys2Proof/Certificates/Slice0/Obligations.lean ====
section
/-! DEFINITION. The statements for the provers, and the few words they are written in. A rule that the spec marks
[decision] or [derived] is the spec's own choice or inference: a statement that rests on one is 'derived', cites the
section that holds it, and its docstring names it. The field `result` of a next state is the model's latch of what the
step returns (40_step.md R139; log entry 6). -/

open Sys2Proof Sys2Proof.Machine

/-! ## The words of the statements -/

namespace Sys2Proof.Claims

/-- A row of the decode table of 30_encoding.md R106: its number, `match` and `mask`. -/
abbrev TableRow := Nat × Half × Half

/-- The 34 rows of 30_encoding.md R106, copied from it. -/
def opcodeTable : List TableRow :=
  [(1, 0x00E0, 0xFFFF), (2, 0x00EE, 0xFFFF), (3, 0x1000, 0xF000), (4, 0x2000, 0xF000), (5, 0x3000, 0xF000),
   (6, 0x4000, 0xF000), (7, 0x5000, 0xF00F), (8, 0x6000, 0xF000), (9, 0x7000, 0xF000)] ++
  [(10, 0x8000, 0xF00F), (11, 0x8001, 0xF00F), (12, 0x8002, 0xF00F), (13, 0x8003, 0xF00F), (14, 0x8004, 0xF00F),
   (15, 0x8005, 0xF00F), (16, 0x8006, 0xF00F), (17, 0x8007, 0xF00F), (18, 0x800E, 0xF00F)] ++
  [(19, 0x9000, 0xF00F), (20, 0xA000, 0xF000), (21, 0xB000, 0xF000), (22, 0xC000, 0xF000), (23, 0xD000, 0xF000),
   (24, 0xE09E, 0xF0FF), (25, 0xE0A1, 0xF0FF)] ++
  [(26, 0xF007, 0xF0FF), (27, 0xF00A, 0xF0FF), (28, 0xF015, 0xF0FF), (29, 0xF018, 0xF0FF), (30, 0xF01E, 0xF0FF),
   (31, 0xF029, 0xF0FF), (32, 0xF033, 0xF0FF), (33, 0xF055, 0xF0FF), (34, 0xF065, 0xF0FF)]

/-- The row of 30_encoding.md R106 an instruction belongs to. -/
def rowNumber : Instr → Nat
  | .cls => 1 | .ret => 2 | .jp _ => 3 | .call _ => 4 | .seVxNn _ _ => 5 | .sneVxNn _ _ => 6 | .seVxVy _ _ => 7
  | .ldVxNn _ _ => 8 | .addVxNn _ _ => 9 | .ldVxVy _ _ => 10 | .orVxVy _ _ => 11 | .andVxVy _ _ => 12
  | .xorVxVy _ _ => 13 | .addVxVy _ _ => 14 | .subVxVy _ _ => 15 | .shrVx _ _ => 16 | .subnVxVy _ _ => 17
  | .shlVx _ _ => 18 | .sneVxVy _ _ => 19 | .ldINnn _ => 20 | .jpV0 _ => 21 | .rndVxNn _ _ => 22 | .drw _ _ _ => 23
  | .skp _ => 24 | .sknp _ => 25 | .ldVxDt _ => 26 | .ldVxK _ => 27 | .ldDtVx _ => 28 | .ldStVx _ => 29
  | .addIVx _ => 30 | .ldFVx _ => 31 | .ldBVx _ => 32 | .ldMiVx _ => 33 | .ldVxMi _ => 34

/-- The new pc of an instruction that does not fault, as the table of 40_step.md R135 lists it. -/
def newPc (s : State) : Instr → Nat
  | .jp nnn | .call nnn => nnn.toNat
  | .ret => (s.stack.toList.getD (s.sp.val - 1) 0).toNat
  | .jpV0 nnn => (s.v 0).toNat + nnn.toNat
  | .seVxNn x nn => s.pc.toNat + (if s.v x = nn then 4 else 2)
  | .sneVxNn x nn => s.pc.toNat + (if s.v x = nn then 2 else 4)
  | .seVxVy x y => s.pc.toNat + (if s.v x = s.v y then 4 else 2)
  | .sneVxVy x y => s.pc.toNat + (if s.v x = s.v y then 2 else 4)
  | .skp x => s.pc.toNat + (if s.keys.toList.getD (s.v x).toNat false then 4 else 2)
  | .sknp x => s.pc.toNat + (if s.keys.toList.getD (s.v x).toNat false then 2 else 4)
  | .ldVxK _ => s.pc.toNat
  | .cls | .ldVxNn _ _ | .addVxNn _ _ | .ldVxVy _ _ | .orVxVy _ _ | .andVxVy _ _ | .xorVxVy _ _ => s.pc.toNat + 2
  | .addVxVy _ _ | .subVxVy _ _ | .shrVx _ _ | .subnVxVy _ _ | .shlVx _ _ | .rndVxNn _ _ => s.pc.toNat + 2
  | .ldINnn _ | .drw _ _ _ | .ldVxDt _ | .ldDtVx _ | .ldStVx _ | .addIVx _ | .ldFVx _ => s.pc.toNat + 2
  | .ldBVx _ | .ldMiVx _ | .ldVxMi _ => s.pc.toNat + 2

/-- A flag as VF holds it: 1 or 0. -/
def bit (p : Prop) [Decidable p] : Byte := if p then 1 else 0

/-- Some sprite bit equal to 1 lands on the pixel (px, py): column c of row r lands at ((x0 + c) mod 64,
(y0 + r) mod 32) and is bit 7 - c of the row (43_display.md R241, R244). -/
def Covers (rows : List Byte) (x0 y0 : Nat) (px : Fin 64) (py : Fin 32) : Prop :=
  ∃ r c, ∃ h : r < rows.length, c < 8 ∧ (x0 + c) % 64 = px.val ∧ (y0 + r) % 32 = py.val ∧
    rows[r].getLsbD (7 - c) = true

/-- A state in which `Fault(r)` was raised: the mode and the result of the step, nothing else (60_exceptions.md
R344). -/
def faultedWith (s : State) (r : Fault) : State := { s with mode := .faulted r, result := some (.fault r) }

/-- By how much a skip moves the pc (41_control_flow.md R160). -/
def skipBy (p : Prop) [Decidable p] : Nat := if p then 4 else 2

/-- The pc moved by `n`, nothing else written. -/
def movedBy (s : State) (n : Nat) : State := { s with pc := BitVec.ofNat 16 (s.pc.toNat + n), result := some .ok }

/-- The fault of a read of `n` bytes from I on: the lowest address above 0xFFF (20_memory.md R74, R76). -/
def readRangeFault (s : State) (n : Nat) : Option Fault :=
  if 0x1000 < s.I.toNat + n then some (.memOutOfRange (max s.I.toNat 0x1000)) else none

/-- The fault of a write of `n` bytes from I on: the lowest address in the font region or above 0xFFF
(20_memory.md R75, R76). -/
def writeRangeFault (s : State) (n : Nat) : Option Fault :=
  if s.I.toNat ≤ 0x04F then some (.fontWrite s.I.toNat)
  else if 0x1000 < s.I.toNat + n then some (.memOutOfRange (max s.I.toNat 0x1000))
  else none

/-- The fault an instruction raises by its own checks, as 60_exceptions.md R343 lists them. -/
def ownFault (s : State) : Instr → Option Fault
  | .ret => if s.sp.val = 0 then some .stackUnderflow else none
  | .call _ => if s.sp.val = 16 then some .stackOverflow else none
  | .drw _ _ n =>
    if n = 0 then (if s.drawZeroHeight = .fault then some .spriteHeightZero else none) else readRangeFault s n
  | .addIVx x =>
    if 0xFFF < s.I.toNat + s.V[x.val].toNat then some (.indexOutOfRange (s.I.toNat + s.V[x.val].toNat)) else none
  | .skp x | .sknp x => if 0xF < s.V[x.val].toNat then some (.keyIndexOutOfRange s.V[x.val]) else none
  | .ldBVx _ => writeRangeFault s 3
  | .ldMiVx x => writeRangeFault s (x.val + 1)
  | .ldVxMi x => readRangeFault s (x.val + 1)
  | .cls | .jp _ | .seVxNn _ _ | .sneVxNn _ _ | .seVxVy _ _ | .sneVxVy _ _ | .jpV0 _ => none
  | .ldVxNn _ _ | .addVxNn _ _ | .ldVxVy _ _ | .orVxVy _ _ | .andVxVy _ _ | .xorVxVy _ _ => none
  | .addVxVy _ _ | .subVxVy _ _ | .shrVx _ _ | .subnVxVy _ _ | .shlVx _ _ | .rndVxNn _ _ => none
  | .ldINnn _ | .ldVxDt _ | .ldVxK _ | .ldDtVx _ | .ldStVx _ | .ldFVx _ => none

end Sys2Proof.Claims

open Sys2Proof.Claims

/-! ## Encoding -/

/-- 30_encoding.md R107 [derived]: decode gives back every well-formed instruction from its word. -/
def Obligations.DecodeOfEncodeIsTheInstruction : Prop :=
  ∀ i : Instr, i.wellFormed = true → decodeWord (encode i) = some i

/-- 30_encoding.md R107 [derived]: a word that decodes is the word of the instruction it decodes to. -/
def Obligations.EncodeOfDecodeIsTheWord : Prop :=
  ∀ (w : Half) (i : Instr), decodeWord w = some i → i.wellFormed = true ∧ encode i = w

/-- 30_encoding.md R106: `(w & mask) = match` picks the row of the instruction a word decodes to. -/
def Obligations.DecodeTestsMatchAndMask : Prop :=
  ∀ (w : Half) (row : TableRow), row ∈ opcodeTable →
    (w &&& row.2.2 = row.2.1 ↔ ∃ i, decodeWord w = some i ∧ rowNumber i = row.1)

/-- 30_encoding.md R108 [derived]: the failure space. -/
def Obligations.DecodeFailureSpaceIsExact : Prop :=
  ∀ w : Half, decodeWord w = none ↔
    (w.toNat / 4096 = 0x0 ∧ w ≠ 0x00E0 ∧ w ≠ 0x00EE) ∨
    (w.toNat / 4096 = 0x5 ∧ w.toNat % 16 ≠ 0) ∨
    (w.toNat / 4096 = 0x8 ∧ w.toNat % 16 ∈ [0x8, 0x9, 0xA, 0xB, 0xC, 0xD, 0xF]) ∨
    (w.toNat / 4096 = 0x9 ∧ w.toNat % 16 ≠ 0) ∨
    (w.toNat / 4096 = 0xE ∧ w.toNat % 256 ∉ [0x9E, 0xA1]) ∨
    (w.toNat / 4096 = 0xF ∧ w.toNat % 256 ∉ [0x07, 0x0A, 0x15, 0x18, 0x1E, 0x29, 0x33, 0x55, 0x65])

/-- 30_encoding.md R102, R103: the nibbles and the operand fields as numbers, and `zext_16(NNN)`. -/
def Obligations.OperandFieldsOfAWord : Prop :=
  ∀ w : Half,
    (nibble1 w).toNat = w.toNat / 4096 ∧ (nibble2 w).toNat = w.toNat / 256 % 16 ∧
    (nibble3 w).toNat = w.toNat / 16 % 16 ∧ (nibble4 w).toNat = w.toNat % 16 ∧
    (fieldX w).val = w.toNat / 256 % 16 ∧ (fieldY w).val = w.toNat / 16 % 16 ∧ fieldN w = w.toNat % 16 ∧
    (fieldNN w).toNat = w.toNat % 256 ∧ (fieldNNN w).toNat = w.toNat % 4096 ∧
    (absolute (fieldNNN w)).toNat = w.toNat % 4096

/-- A few words written out from the patterns of 30_encoding.md R104 and R106. -/
def Obligations.WordsOfTheTableDecode : Prop :=
  decodeWord 0x00E0 = some .cls ∧ decodeWord 0x1204 = some (.jp 0x204) ∧ decodeWord 0x6A42 = some (.ldVxNn 0xA 0x42) ∧
  decodeWord 0x8AB6 = some (.shrVx 0xA 0xB) ∧ decodeWord 0xA300 = some (.ldINnn 0x300) ∧
  decodeWord 0xD012 = some (.drw 0 1 2) ∧ decodeWord 0xE29E = some (.skp 2) ∧ decodeWord 0xFC33 = some (.ldBVx 0xC) ∧
  decodeWord 0xF20A = some (.ldVxK 2) ∧ decodeWord 0x00FF = none ∧ decodeWord 0x5341 = none

/-! ## The step -/

/-- 40_step.md R133, 20_memory.md R78: the fetch reads the two bytes at pc, high byte first, at any pc up to 0xFFE; above
it the step raises `PcOutOfRange(pc)`, then the host takes its turn (log entry 2, the model's choice). -/
def Obligations.FetchReadsBigEndianOrFaults : Prop :=
  (∀ s : State, s.pc.toNat ≤ 0xFFE →
    ∃ w, s.fetch = some w ∧ w.toNat = 256 * (s.byte s.pc.toNat).toNat + (s.byte (s.pc.toNat + 1)).toNat) ∧
  (∀ s : State, s.mode = .running → 0xFFE < s.pc.toNat →
    step s = .next (faultedWith s (.pcOutOfRange s.pc.toNat)).hostTurn)

/-- 40_step.md R140 [derived]: when the bytes at the pc decode to `i`, the step is exec of `i`, then the tick unless it
faulted, then the host's turn (log entry 2). -/
def Obligations.StepRunsTheDecodedInstruction : Prop :=
  ∀ (s t : State) (w : Half) (i : Instr), s.mode = .running → s.pc.toNat ≤ 0xFFE →
    w.toNat = 256 * (s.byte s.pc.toNat).toNat + (s.byte (s.pc.toNat + 1)).toNat → decodeWord w = some i →
    exec i s = .next t →
      ((∀ r, t.mode ≠ .faulted r) → step s = .next t.tick.hostTurn) ∧
      (∀ r, t.mode = .faulted r → step s = .next t.hostTurn)

/-- 40_step.md R137 [decision D17]: a decode failure advances the pc by 2, ticks and changes nothing else; at 0xFFE it
faults. Then the host takes its turn (log entry 2, the model's choice). -/
def Obligations.DecodeFailureAdvancesAndTicks : Prop :=
  ∀ (s : State) (w : Half), s.mode = .running → s.pc.toNat ≤ 0xFFE →
    w.toNat = 256 * (s.byte s.pc.toNat).toNat + (s.byte (s.pc.toNat + 1)).toNat → decodeWord w = none →
      (s.pc.toNat ≤ 0xFFD → step s = .next { s with pc := s.pc + 2, result := some .decodeFailure }.tick.hostTurn) ∧
      (s.pc.toNat = 0xFFE → step s = .next (faultedWith s (.pcOutOfRange 0x1000)).hostTurn)

/-- 40_step.md R141 [decision D24]: the core's step in mode Faulted(r) changes nothing but the result it returns,
Fault(r) (log entry 6), and does not tick; then the host takes its turn (log entry 2). Both entries are the model's
choice. -/
def Obligations.FaultedStepChangesNothing : Prop :=
  ∀ (s : State) (r : Fault), s.mode = .faulted r → step s = .next { s with result := some (.fault r) }.hostTurn

/-- 60_exceptions.md R344 [decision D8]: every instruction answers a next state, and one that faults writes the mode and
nothing else. -/
def Obligations.EveryInstructionAnswersAndFaultsPrecisely : Prop :=
  (∀ (i : Instr) (s : State), s.mode = .running →
    ∃ t, exec i s = .next t ∧ ∀ r, t.mode = .faulted r → t = faultedWith s r) ∧
  ∀ s : State, ∃ t, step s = .next t

/-- 60_exceptions.md R343, R346 [decisions D5, D6, D8, D11, D12, D14, D25], 40_step.md R136 [decision D6]: exactly when
each instruction faults and with what, its own checks before the check of the new pc; otherwise it completes. -/
def Obligations.FaultsAreExactlyTheListedOnes : Prop :=
  ∀ (i : Instr) (s : State), s.mode = .running →
    (∀ r, ownFault s i = some r → exec i s = .next (faultedWith s r)) ∧
    (ownFault s i = none → 0xFFF < newPc s i → exec i s = .next (faultedWith s (.pcOutOfRange (newPc s i)))) ∧
    (ownFault s i = none → newPc s i ≤ 0xFFF →
      ∃ t, exec i s = .next t ∧ t.result = some .ok ∧ t.pc.toNat = newPc s i ∧ ∀ r, t.mode ≠ .faulted r)

/-- 40_step.md R135: the new pc of every instruction, on unbounded naturals. -/
def Obligations.NextPcFollowsTheTable : Prop :=
  ∀ (i : Instr) (s t : State), s.mode = .running → exec i s = .next t → (∀ r, t.mode ≠ .faulted r) →
    t.pc.toNat = newPc s i

/-! ## Invariants -/

/-- 10_state.md R46 [derived]: every step keeps the invariant. -/
def Obligations.StepKeepsTheInvariant : Prop :=
  ∀ s t : State, s.Inv → step s = .next t → t.Inv

/-- 10_state.md R46 [derived]: the invariant holds after reset, whatever the clock, `FONT` and parameter. -/
def Obligations.ResetMeetsTheInvariant : Prop :=
  (∀ (t0 : Nat) (font : Font) (dz : DrawZeroHeight), (State.resetPort t0 font dz).Inv) ∧ State.reset.Inv

/-- 10_state.md R46 [derived]: reset, load and setKey keep the invariant. -/
def Obligations.HostActionsKeepTheInvariant : Prop :=
  ∀ (a : HostAction) (s t : State), s.Inv → hostAct a s = .next t → t.Inv

/-- 10_state.md R46 [derived]: what it says of every state reachable by steps and host actions. -/
def Obligations.ReachableStatesStayInBounds : Prop :=
  ∀ s : State, Reachable s →
    s.pc.toNat ≤ 0xFFF ∧ s.I.toNat ≤ 0xFFF ∧ s.sp.val ≤ 16 ∧ (∀ a : Fin 80, s.byte a.val = s.font[a.val]) ∧
    ∀ x prev, s.mode = .awaitingKey x prev → s.fetch = some (encode (.ldVxK x))

/-- 20_memory.md R77 [derived]: no step writes the font region or the parameters. -/
def Obligations.StepNeverWritesTheFont : Prop :=
  ∀ s t : State, step s = .next t →
    t.font = s.font ∧ t.drawZeroHeight = s.drawZeroHeight ∧ ∀ a ≤ 0x04F, t.byte a = s.byte a

/-! ## Register loads, arithmetic, logic, random (42_alu.md) -/

/-- 42_alu.md R201. (FaultsAreExactlyTheListedOnes says what happens where pc + 2 passes 0xFFF, here and below.) -/
def Obligations.LoadImmediateResult : Prop :=
  ∀ (x : Reg) (nn : Byte) (s : State), s.pc.toNat + 2 ≤ 0xFFF →
    exec (.ldVxNn x nn) s = .next { s with V := s.V.set x.val nn, pc := s.pc + 2, result := some .ok }

/-- 42_alu.md R202: the sum wraps modulo 256 and VF is no carry. -/
def Obligations.AddImmediateWrapsWithoutFlag : Prop :=
  ∀ (x : Reg) (nn : Byte) (s : State), s.pc.toNat + 2 ≤ 0xFFF →
    ∃ r : Byte, r.toNat = (s.V[x.val].toNat + nn.toNat) % 256 ∧
      exec (.addVxNn x nn) s = .next { s with V := s.V.set x.val r, pc := s.pc + 2, result := some .ok }

/-- 42_alu.md R203. -/
def Obligations.CopyRegisterResult : Prop :=
  ∀ (x y : Reg) (s : State), s.pc.toNat + 2 ≤ 0xFFF →
    exec (.ldVxVy x y) s = .next { s with V := s.V.set x.val s.V[y.val], pc := s.pc + 2, result := some .ok }

/-- 42_alu.md R204 to R206 and R211 [decision D9]: the result to VX, then VF cleared, on pre-step operands. -/
def Obligations.LogicClearsTheFlag : Prop :=
  ∀ (x y : Reg) (s : State), s.pc.toNat + 2 ≤ 0xFFF →
    exec (.orVxVy x y) s = .next { s with
      V := (s.V.set x.val (s.V[x.val] ||| s.V[y.val])).set 15 0, pc := s.pc + 2, result := some .ok } ∧
    exec (.andVxVy x y) s = .next { s with
      V := (s.V.set x.val (s.V[x.val] &&& s.V[y.val])).set 15 0, pc := s.pc + 2, result := some .ok } ∧
    exec (.xorVxVy x y) s = .next { s with
      V := (s.V.set x.val (s.V[x.val] ^^^ s.V[y.val])).set 15 0, pc := s.pc + 2, result := some .ok }

/-- 42_alu.md R207, R211 [decision D9]: the sum modulo 256 to VX, then the carry to VF. -/
def Obligations.AddRegistersCarry : Prop :=
  ∀ (x y : Reg) (s : State), s.pc.toNat + 2 ≤ 0xFFF →
    ∃ r : Byte, r.toNat = (s.V[x.val].toNat + s.V[y.val].toNat) % 256 ∧
      exec (.addVxVy x y) s = .next { s with
        V := (s.V.set x.val r).set 15 (bit (255 < s.V[x.val].toNat + s.V[y.val].toNat)),
        pc := s.pc + 2, result := some .ok }

/-- 42_alu.md R208, R210, R211 [decision D9]: the difference modulo 256 to VX, then NOT borrow to VF. -/
def Obligations.SubtractRegistersNotBorrow : Prop :=
  ∀ (x y : Reg) (s : State), s.pc.toNat + 2 ≤ 0xFFF →
    (∃ r : Byte, (r.toNat : Int) = ((s.V[x.val].toNat : Int) - s.V[y.val].toNat) % 256 ∧
      exec (.subVxVy x y) s = .next { s with
        V := (s.V.set x.val r).set 15 (bit (s.V[y.val].toNat ≤ s.V[x.val].toNat)),
        pc := s.pc + 2, result := some .ok }) ∧
    (∃ r : Byte, (r.toNat : Int) = ((s.V[y.val].toNat : Int) - s.V[x.val].toNat) % 256 ∧
      exec (.subnVxVy x y) s = .next { s with
        V := (s.V.set x.val r).set 15 (bit (s.V[x.val].toNat ≤ s.V[y.val].toNat)),
        pc := s.pc + 2, result := some .ok })

/-- 42_alu.md R209, R211, R212 [decision D9]: VX shifted by one, then the bit shifted out to VF; the Y field is not
read. -/
def Obligations.ShiftsPutTheBitOutInTheFlag : Prop :=
  ∀ (x y : Reg) (s : State), s.pc.toNat + 2 ≤ 0xFFF →
    (∃ r : Byte, r.toNat = s.V[x.val].toNat / 2 ∧
      exec (.shrVx x y) s = .next { s with
        V := (s.V.set x.val r).set 15 (bit (s.V[x.val].toNat % 2 = 1)), pc := s.pc + 2, result := some .ok }) ∧
    (∃ r : Byte, r.toNat = s.V[x.val].toNat * 2 % 256 ∧
      exec (.shlVx x y) s = .next { s with
        V := (s.V.set x.val r).set 15 (bit (128 ≤ s.V[x.val].toNat)), pc := s.pc + 2, result := some .ok })

/-- 42_alu.md R213 [decision D20]: the step's random byte, whatever it is, AND NN. -/
def Obligations.RandomByteIsMasked : Prop :=
  ∀ (x : Reg) (nn : Byte) (s : State), s.pc.toNat + 2 ≤ 0xFFF →
    exec (.rndVxNn x nn) s = .next { s with V := s.V.set x.val (s.rnd &&& nn), pc := s.pc + 2, result := some .ok }

/-! ## Control transfer (41_control_flow.md) -/

/-- 41_control_flow.md R163: a jump succeeds at every target, odd ones and 0xFFF among them; nothing can be fetched
at 0xFFF. -/
def Obligations.JumpSetsThePc : Prop :=
  ∀ (nnn : Addr12) (s : State),
    exec (.jp nnn) s = .next { s with pc := nnn.setWidth 16, result := some .ok } ∧
    ∀ t, nnn = 0xFFF → exec (.jp nnn) s = .next t → t.fetch = none

/-- 41_control_flow.md R168 [decision D6]: V0 + NNN, never wrapped. -/
def Obligations.JumpV0NeverWraps : Prop :=
  ∀ (nnn : Addr12) (s : State),
    (s.V[0].toNat + nnn.toNat ≤ 0xFFF →
      exec (.jpV0 nnn) s = .next { s with pc := BitVec.ofNat 16 (s.V[0].toNat + nnn.toNat), result := some .ok }) ∧
    (0xFFF < s.V[0].toNat + nnn.toNat →
      exec (.jpV0 nnn) s = .next (faultedWith s (.pcOutOfRange (s.V[0].toNat + nnn.toNat))))

/-- 41_control_flow.md R162 [decision D18]: push pc + 2 and transfer, or StackOverflow at 16 entries. -/
def Obligations.CallPushesTheReturnAddress : Prop :=
  ∀ (nnn : Addr12) (s : State),
    (∀ h : s.sp.val < 16, exec (.call nnn) s = .next { s with
      stack := s.stack.set s.sp.val (s.pc + 2), sp := ⟨s.sp.val + 1, by omega⟩, pc := nnn.setWidth 16,
      result := some .ok }) ∧
    (s.sp.val = 16 → exec (.call nnn) s = .next (faultedWith s .stackOverflow))

/-- 41_control_flow.md R161 [decision D19]: pop into the pc, the slot keeping its value; StackUnderflow at 0 entries;
`PcOutOfRange` for a popped address above 0xFFF. -/
def Obligations.ReturnPopsThePc : Prop :=
  ∀ s : State,
    (∀ h : 0 < s.sp.val, s.stack[s.sp.val - 1].toNat ≤ 0xFFF → exec .ret s = .next { s with
      sp := ⟨s.sp.val - 1, by omega⟩, pc := s.stack[s.sp.val - 1], result := some .ok }) ∧
    (∀ h : 0 < s.sp.val, 0xFFF < s.stack[s.sp.val - 1].toNat → exec .ret s = .next (faultedWith s (.pcOutOfRange s.stack[s.sp.val - 1].toNat))) ∧
    (s.sp.val = 0 → exec .ret s = .next (faultedWith s .stackUnderflow))

/-- 41_control_flow.md R161, R162 [decisions D18, D19]: a return from any state with the sp of the call and its stack
entries up to the pushed one goes to the instruction after the call, with the pre-call sp. The entries above may hold
anything, as after a nested call and return. -/
def Obligations.CallThenReturnRoundTrip : Prop :=
  ∀ (nnn : Addr12) (s t u : State), s.mode = .running → s.sp.val < 16 → s.pc.toNat + 2 ≤ 0xFFF →
    exec (.call nnn) s = .next t →
    (∀ j : Fin 16, j.val ≤ s.sp.val → u.stack[j.val] = t.stack[j.val]) → u.sp = t.sp →
      t.pc.toNat = nnn.toNat ∧ ∃ v, exec .ret u = .next v ∧ v.pc.toNat = s.pc.toNat + 2 ∧ v.sp = s.sp ∧ v.mode = u.mode

/-- 41_control_flow.md R160, R164 to R167 [derived], 40_step.md R136 [decision D6]: the register skips move the pc by 4
when the condition holds and by 2 otherwise, and fault where that passes 0xFFF. -/
def Obligations.RegisterSkips : Prop :=
  ∀ (x y : Reg) (nn : Byte) (s : State),
    (s.pc.toNat + skipBy (s.V[x.val] = nn) ≤ 0xFFF →
      exec (.seVxNn x nn) s = .next (movedBy s (skipBy (s.V[x.val] = nn)))) ∧
    (0xFFF < s.pc.toNat + skipBy (s.V[x.val] = nn) →
      exec (.seVxNn x nn) s = .next (faultedWith s (.pcOutOfRange (s.pc.toNat + skipBy (s.V[x.val] = nn))))) ∧
    (s.pc.toNat + skipBy (s.V[x.val] ≠ nn) ≤ 0xFFF →
      exec (.sneVxNn x nn) s = .next (movedBy s (skipBy (s.V[x.val] ≠ nn)))) ∧
    (0xFFF < s.pc.toNat + skipBy (s.V[x.val] ≠ nn) →
      exec (.sneVxNn x nn) s = .next (faultedWith s (.pcOutOfRange (s.pc.toNat + skipBy (s.V[x.val] ≠ nn))))) ∧
    (s.pc.toNat + skipBy (s.V[x.val] = s.V[y.val]) ≤ 0xFFF →
      exec (.seVxVy x y) s = .next (movedBy s (skipBy (s.V[x.val] = s.V[y.val])))) ∧
    (0xFFF < s.pc.toNat + skipBy (s.V[x.val] = s.V[y.val]) →
      exec (.seVxVy x y) s = .next (faultedWith s (.pcOutOfRange (s.pc.toNat + skipBy (s.V[x.val] = s.V[y.val]))))) ∧
    (s.pc.toNat + skipBy (s.V[x.val] ≠ s.V[y.val]) ≤ 0xFFF →
      exec (.sneVxVy x y) s = .next (movedBy s (skipBy (s.V[x.val] ≠ s.V[y.val])))) ∧
    (0xFFF < s.pc.toNat + skipBy (s.V[x.val] ≠ s.V[y.val]) →
      exec (.sneVxVy x y) s = .next (faultedWith s (.pcOutOfRange (s.pc.toNat + skipBy (s.V[x.val] ≠ s.V[y.val])))))

/-! ## Display (43_display.md) -/

/-- 43_display.md R249. -/
def Obligations.ClearTurnsEveryPixelOff : Prop :=
  ∀ s : State,
    (s.pc.toNat + 2 ≤ 0xFFF →
      ∃ d : Display, (∀ (x : Fin 64) (y : Fin 32), d[x.val][y.val] = false) ∧
        exec .cls s = .next { s with disp := d, pc := s.pc + 2, result := some .ok }) ∧
    (0xFFF < s.pc.toNat + 2 → exec .cls s = .next (faultedWith s (.pcOutOfRange (s.pc.toNat + 2))))

/-- 43_display.md R244, read against the display before the blit by R245 and R247 [derived]: the blit inverts every
pixel a sprite bit 1 lands on, with wraparound on both axes, and reports whether a set pixel was turned off. -/
def Obligations.BlitXorsTheSpriteWithWraparound : Prop :=
  ∀ (rows : List Byte) (x0 y0 : Nat) (d : Display), 1 ≤ rows.length → rows.length ≤ 15 →
    (∀ (px : Fin 64) (py : Fin 32), Covers rows x0 y0 px py →
      (blit rows x0 y0 d).1[px.val][py.val] = !d[px.val][py.val]) ∧
    (∀ (px : Fin 64) (py : Fin 32), ¬ Covers rows x0 y0 px py →
      (blit rows x0 y0 d).1[px.val][py.val] = d[px.val][py.val]) ∧
    ((blit rows x0 y0 d).2 = true ↔
      ∃ (px : Fin 64) (py : Fin 32), Covers rows x0 y0 px py ∧ d[px.val][py.val] = true)

/-- 43_display.md R250, R251 [decisions D10, D25]: DXYN blits the N bytes from I at the pre-step VX, VY and writes the
collision to VF last. -/
def Obligations.DrawBlitsTheSpriteAtI : Prop :=
  ∀ (x y : Reg) (n : Nat) (s : State), 1 ≤ n → n ≤ 15 → s.I.toNat + n ≤ 0x1000 → s.pc.toNat + 2 ≤ 0xFFF →
    ∃ rows : List Byte, rows.length = n ∧ (∀ r (h : r < rows.length), rows[r] = s.byte (s.I.toNat + r)) ∧
      exec (.drw x y n) s = .next { s with
        disp := (blit rows s.V[x.val].toNat s.V[y.val].toNat s.disp).1,
        V := s.V.set 15 (bit ((blit rows s.V[x.val].toNat s.V[y.val].toNat s.disp).2 = true)),
        pc := s.pc + 2, result := some .ok }

/-- 43_display.md R250, R252 [decisions D11, D25]: a sprite that runs past 0xFFF faults before any pixel changes;
N = 0 does what the parameter says. -/
def Obligations.DrawOutOfRangeAndZeroHeight : Prop :=
  ∀ (x y : Reg) (n : Nat) (s : State),
    (1 ≤ n → n ≤ 15 → s.I.toNat ≤ 0xFFF → 0x1000 < s.I.toNat + n →
      exec (.drw x y n) s = .next (faultedWith s (.memOutOfRange 0x1000))) ∧
    (s.drawZeroHeight = .fault → exec (.drw x y 0) s = .next (faultedWith s .spriteHeightZero)) ∧
    (s.drawZeroHeight = .empty → s.pc.toNat + 2 ≤ 0xFFF → exec (.drw x y 0) s = .next { s with
      V := s.V.set 15 0, pc := s.pc + 2, result := some .ok })

/-- 43_display.md R253 [derived]: two DXYN with the same sprite at the same place, with no display write between them,
restore the display, and the second reports a collision exactly when the first turned a pixel on. -/
def Obligations.DrawTwiceRestoresTheDisplay : Prop :=
  ∀ (x y : Reg) (n : Nat) (s t s' t' : State), 1 ≤ n → n ≤ 15 →
    exec (.drw x y n) s = .next t → t.result = some .ok →
    s'.disp = t.disp → s'.I = s.I → s'.V[x.val] = s.V[x.val] → s'.V[y.val] = s.V[y.val] →
    (∀ r < n, s'.byte (s.I.toNat + r) = s.byte (s.I.toNat + r)) →
    exec (.drw x y n) s' = .next t' → t'.result = some .ok →
      t'.disp = s.disp ∧
      (t'.V[15] = 1 ↔ ∃ (px : Fin 64) (py : Fin 32), s.disp[px.val][py.val] = false ∧ t.disp[px.val][py.val] = true)

/-! ## Index and memory (44_index_memory.md) -/

/-- 44_index_memory.md R271. -/
def Obligations.LoadIndexResult : Prop :=
  ∀ (nnn : Addr12) (s : State), s.pc.toNat + 2 ≤ 0xFFF →
    exec (.ldINnn nnn) s = .next { s with I := nnn.setWidth 16, pc := s.pc + 2, result := some .ok }

/-- 44_index_memory.md R277 [decision D13]: VX times 5, not masked. -/
def Obligations.FontAddressIsFiveTimesTheDigit : Prop :=
  ∀ (x : Reg) (s : State), s.pc.toNat + 2 ≤ 0xFFF →
    ∃ a : Half, a.toNat = s.V[x.val].toNat * 5 ∧
      exec (.ldFVx x) s = .next { s with I := a, pc := s.pc + 2, result := some .ok }

/-- 44_index_memory.md R274 [decision D14]: I + VX, or `IndexOutOfRange` of the sum; VF is not written. -/
def Obligations.AddToIndexFaultsPastMemory : Prop :=
  ∀ (x : Reg) (s : State),
    (s.I.toNat + s.V[x.val].toNat ≤ 0xFFF → s.pc.toNat + 2 ≤ 0xFFF →
      ∃ a : Half, a.toNat = s.I.toNat + s.V[x.val].toNat ∧
        exec (.addIVx x) s = .next { s with I := a, pc := s.pc + 2, result := some .ok }) ∧
    (0xFFF < s.I.toNat + s.V[x.val].toNat → exec (.addIVx x) s = .next (faultedWith s (.indexOutOfRange (s.I.toNat + s.V[x.val].toNat))))

/-- 44_index_memory.md R278 [decisions D5, D25]: FX33 stores hundreds, tens and units at I, I + 1, I + 2 and changes
nothing else. The memory is in its canonical form (StepKeepsTheInvariant). -/
def Obligations.StoreDecimalDigits : Prop :=
  ∀ (x : Reg) (s : State), s.mem.wf s.font = true → 0x04F < s.I.toNat → s.I.toNat + 2 ≤ 0xFFF →
    s.pc.toNat + 2 ≤ 0xFFF →
    ∃ m : Memory, exec (.ldBVx x) s = .next { s with mem := m, pc := s.pc + 2, result := some .ok } ∧
      m.wf s.font = true ∧
      (m.read s.font s.I.toNat).toNat = s.V[x.val].toNat / 100 ∧
      (m.read s.font (s.I.toNat + 1)).toNat = s.V[x.val].toNat / 10 % 10 ∧
      (m.read s.font (s.I.toNat + 2)).toNat = s.V[x.val].toNat % 10 ∧
      ∀ a, a < s.I.toNat ∨ s.I.toNat + 2 < a → m.read s.font a = s.byte a

/-- 44_index_memory.md R279 [decisions D5, D15, D25]: FX55 stores V0 to VX from I on and changes nothing else, I
included. The memory is in its canonical form (StepKeepsTheInvariant). -/
def Obligations.StoreRegisters : Prop :=
  ∀ (x : Reg) (s : State), s.mem.wf s.font = true → 0x04F < s.I.toNat → s.I.toNat + x.val ≤ 0xFFF →
    s.pc.toNat + 2 ≤ 0xFFF →
    ∃ m : Memory, exec (.ldMiVx x) s = .next { s with mem := m, pc := s.pc + 2, result := some .ok } ∧
      m.wf s.font = true ∧
      (∀ k : Reg, k.val ≤ x.val → m.read s.font (s.I.toNat + k.val) = s.V[k.val]) ∧
      ∀ a, a < s.I.toNat ∨ s.I.toNat + x.val < a → m.read s.font a = s.byte a

/-- 44_index_memory.md R280 [decisions D15, D25]: FX65 loads V0 to VX from I on; the other registers and I keep their
values. -/
def Obligations.LoadRegisters : Prop :=
  ∀ (x : Reg) (s : State), s.I.toNat + x.val ≤ 0xFFF → s.pc.toNat + 2 ≤ 0xFFF →
    ∃ V : Vector Byte 16, exec (.ldVxMi x) s = .next { s with V := V, pc := s.pc + 2, result := some .ok } ∧
      (∀ k : Reg, k.val ≤ x.val → V[k.val] = s.byte (s.I.toNat + k.val)) ∧
      ∀ k : Reg, x.val < k.val → V[k.val] = s.V[k.val]

/-! ## Timers and keypad (45_timers_keypad.md) -/

/-- 45_timers_keypad.md R306: the value before this step's tick. -/
def Obligations.ReadDelayTimer : Prop :=
  ∀ (x : Reg) (s : State),
    (s.pc.toNat + 2 ≤ 0xFFF →
      exec (.ldVxDt x) s = .next { s with V := s.V.set x.val s.dt, pc := s.pc + 2, result := some .ok }) ∧
    (0xFFF < s.pc.toNat + 2 → exec (.ldVxDt x) s = .next (faultedWith s (.pcOutOfRange (s.pc.toNat + 2))))

/-- 45_timers_keypad.md R307, R308 [derived]. -/
def Obligations.SetTimers : Prop :=
  ∀ (x : Reg) (s : State), s.pc.toNat + 2 ≤ 0xFFF →
    exec (.ldDtVx x) s = .next { s with dt := s.V[x.val], pc := s.pc + 2, result := some .ok } ∧
    exec (.ldStVx x) s = .next { s with st := s.V[x.val], pc := s.pc + 2, result := some .ok }

/-- 45_timers_keypad.md R301 to R303 [decision D1]: both timers move together by at most one toward zero, when more
than 1/60 s has passed since the last tick, and the reference is set to `now`; otherwise nothing changes. -/
def Obligations.TickDecrementsOncePastTheThreshold : Prop :=
  ∀ s : State,
    (s.lastTick < s.now → 1000000000 < 60 * (s.now - s.lastTick) →
      ∃ d t : Byte, d.toNat = s.dt.toNat - 1 ∧ t.toNat = s.st.toNat - 1 ∧
        s.tick = { s with dt := d, st := t, lastTick := s.now }) ∧
    (s.now ≤ s.lastTick → s.tick = s) ∧
    (60 * (s.now - s.lastTick) ≤ 1000000000 → s.tick = s)

/-- 45_timers_keypad.md R316, R320, R321 [decision D12]: the keypad skips, on the flag of the key in VX; a value above
0x0F faults. -/
def Obligations.KeypadSkips : Prop :=
  ∀ (x : Reg) (s : State),
    (∀ h : s.V[x.val].toNat ≤ 0xF,
      (s.pc.toNat + skipBy (s.keys[s.V[x.val].toNat] = true) ≤ 0xFFF →
        exec (.skp x) s = .next (movedBy s (skipBy (s.keys[s.V[x.val].toNat] = true)))) ∧
      (s.pc.toNat + skipBy (s.keys[s.V[x.val].toNat] = false) ≤ 0xFFF →
        exec (.sknp x) s = .next (movedBy s (skipBy (s.keys[s.V[x.val].toNat] = false))))) ∧
    (0xF < s.V[x.val].toNat →
      exec (.skp x) s = .next (faultedWith s (.keyIndexOutOfRange s.V[x.val])) ∧
      exec (.sknp x) s = .next (faultedWith s (.keyIndexOutOfRange s.V[x.val])))

/-- 45_timers_keypad.md R324 [decision D16]: the entry step of FX0A takes the keypad sample and stays at the pc. -/
def Obligations.KeyWaitEntry : Prop :=
  ∀ (x : Reg) (s : State), s.pc.toNat ≤ 0xFFF →
    exec (.ldVxK x) s = .next { s with mode := .awaitingKey x s.keys, result := some .ok }

/-- 45_timers_keypad.md R322, R325, R326, R328 [decision D16]: a step of the key wait, with and without a press edge,
and at 0xFFE; then the host takes its turn (log entry 2, the model's choice). -/
def Obligations.KeyWaitStep : Prop :=
  ∀ (s : State) (x : Reg) (prev : Keys), s.mode = .awaitingKey x prev →
    ((∀ k : KeyIdx, ¬ (prev[k.val] = false ∧ s.keys[k.val] = true)) →
      step s = .next { s with mode := .awaitingKey x s.keys, result := some .ok }.tick.hostTurn) ∧
    ((∃ k : KeyIdx, prev[k.val] = false ∧ s.keys[k.val] = true) → s.pc.toNat + 2 ≤ 0xFFF →
      ∃ (k : KeyIdx) (b : Byte), prev[k.val] = false ∧ s.keys[k.val] = true ∧ b.toNat = k.val ∧
        step s = .next { s with V := s.V.set x.val b, pc := s.pc + 2, mode := .running,
                                result := some .ok }.tick.hostTurn) ∧
    ((∃ k : KeyIdx, prev[k.val] = false ∧ s.keys[k.val] = true) → 0xFFF < s.pc.toNat + 2 →
      step s = .next (faultedWith s (.pcOutOfRange (s.pc.toNat + 2))).hostTurn)

/-- 45_timers_keypad.md R327 [decision D16]: any key with a press edge can be the one reported: some value of the draw
(log entry 16) reports it. -/
def Obligations.AnyPressedKeyCanBeReported : Prop :=
  ∀ (s : State) (x : Reg) (prev : Keys) (k : KeyIdx), s.mode = .awaitingKey x prev → s.pc.toNat + 2 ≤ 0xFFF →
    prev[k.val] = false → s.keys[k.val] = true →
      ∃ (pick : Nat) (t : State), step { s with keyPick := pick } = .next t ∧ t.V[x.val].toNat = k.val ∧ t.mode = .running

/-- 60_exceptions.md R366 [decision D16]: the wait is entered only by FX0A and left only by a press edge. -/
def Obligations.KeyWaitIsEnteredAndLeftAsStated : Prop :=
  (∀ (s t : State) (x : Reg) (prev : Keys), s.mode = .running → step s = .next t → t.mode = .awaitingKey x prev →
    s.fetch = some (encode (.ldVxK x)) ∧ prev = s.keys ∧ t.pc = s.pc) ∧
  (∀ (s t : State) (x : Reg) (prev : Keys), s.mode = .awaitingKey x prev → step s = .next t →
    t.mode = .awaitingKey x s.keys ∨
    (∃ k : KeyIdx, prev[k.val] = false ∧ s.keys[k.val] = true) ∧
      (t.mode = .running ∨ t.mode = .faulted (.pcOutOfRange (s.pc.toNat + 2))))

/-! ## Frames and whole-machine rules -/

/-- 10_state.md R33, R34 [decision D9, derived], 00_scope.md R21 [decision D15]: an instruction writes no register but
its destination and, where it has one, the flag VF. -/
def Obligations.OnlyDestinationRegistersChange : Prop :=
  ∀ (i : Instr) (s t : State) (r : Reg), exec i s = .next t → writesReg r i = false → t.V[r.val] = s.V[r.val]

/-- 20_memory.md R72 and R76 [decision D25]: an instruction stores nowhere but at `State.indexBase`, and there only as
many bytes as its form has. -/
def Obligations.OnlyStoredBytesChange : Prop :=
  ∀ (i : Instr) (s t : State), exec i s = .next t →
    (storedRange s i = none → ∀ a, t.byte a = s.byte a) ∧
    (∀ b n, storedRange s i = some (b, n) → ∀ a, a < b ∨ b + n ≤ a → t.byte a = s.byte a)

/-- 10_state.md R35, R37, R38, R40 and 44_index_memory.md R273 [derived; decisions D3, D15, D19, D27]: which
instructions write I, the call stack, the timers and the display. -/
def Obligations.OnlyNamedInstructionsWriteEachUnit : Prop :=
  ∀ (i : Instr) (s t : State), exec i s = .next t →
    (t.I ≠ s.I → (∃ nnn, i = .ldINnn nnn) ∨ (∃ x, i = .addIVx x) ∨ ∃ x, i = .ldFVx x) ∧
    (t.stack ≠ s.stack → ∃ nnn, i = .call nnn) ∧
    (t.sp ≠ s.sp → (∃ nnn, i = .call nnn) ∨ i = .ret) ∧
    (t.disp ≠ s.disp → i = .cls ∨ ∃ x y n, i = .drw x y n) ∧
    (t.dt ≠ s.dt → ∃ x, i = .ldDtVx x) ∧
    (t.st ≠ s.st → ∃ x, i = .ldStVx x)

/-- 10_state.md R39, R41, R42 [decisions D1, D3, D16] and log entries 1, 2, 10: no instruction writes the keypad, the
tick reference, the parameters, the pins or the host's bookkeeping; only a fault or FX0A changes the mode. -/
def Obligations.NoInstructionWritesKeypadOrPorts : Prop :=
  ∀ (i : Instr) (s t : State), exec i s = .next t →
    t.keys = s.keys ∧ t.lastTick = s.lastTick ∧ t.font = s.font ∧ t.drawZeroHeight = s.drawZeroHeight ∧
    t.now = s.now ∧ t.rnd = s.rnd ∧ t.keyPick = s.keyPick ∧ t.schedule = s.schedule ∧ t.stepNo = s.stepNo ∧
    t.loaded = s.loaded ∧
    (t.mode ≠ s.mode → (∃ r, t.mode = .faulted r ∧ t.result = some (.fault r)) ∨
      ∃ x, i = .ldVxK x ∧ t.mode = .awaitingKey x s.keys)

/-- 40_step.md R131 [decisions D1, D20]: no instruction, CXNN included, depends on the clock reading or the key draw,
and none but CXNN on the random byte. -/
def Obligations.OnlyRandomReadsTheRandomByte : Prop :=
  ∀ (i : Instr) (s t : State) (now : Nat) (rnd : Byte) (pick : Nat), exec i s = .next t →
    exec i { s with now := now, keyPick := pick } = .next { t with now := now, keyPick := pick } ∧
    ((∀ x nn, i ≠ .rndVxNn x nn) →
      exec i { s with now := now, rnd := rnd, keyPick := pick } = .next { t with now := now, rnd := rnd, keyPick := pick })

/-- Log entry 2 (the model's choice), 60_exceptions.md R347 [derived]: the host's turn writes the keypad and the pins
of the next step and nothing else of the core; a key takes the last value written to it, and a key not written keeps
its value. -/
def Obligations.HostTurnWritesOnlyKeypadAndPins : Prop :=
  ∀ s : State, ∃ keys : Keys,
    s.hostTurn = { s with keys := keys, now := s.comingTurn.now, rnd := s.comingTurn.rnd,
                          keyPick := s.comingTurn.keyPick, schedule := s.schedule.tail, stepNo := s.stepNo + 1 } ∧
    (∀ k : KeyIdx, (∀ p, (k, p) ∉ s.comingTurn.keyWrites) → keys[k.val] = s.keys[k.val]) ∧
    ∀ (k : KeyIdx) (p : Bool) (before after : List (KeyIdx × Bool)),
      s.comingTurn.keyWrites = before ++ (k, p) :: after → (∀ q, (k, q) ∉ after) → keys[k.val] = p

/-! ## Reset and the host's ports -/

/-- 10_state.md R45 [decisions D2, D3], 70_reset_and_hazards.md R380 [decisions D2 to D4]: every element after
reset. -/
def Obligations.ResetValues : Prop :=
  ∀ (t0 : Nat) (font : Font) (dz : DrawZeroHeight),
    (∀ a : Fin 80, (State.resetPort t0 font dz).byte a.val = font[a.val]) ∧
    (∀ a, 80 ≤ a → (State.resetPort t0 font dz).byte a = 0) ∧
    (∀ r : Reg, (State.resetPort t0 font dz).V[r.val] = 0) ∧
    (State.resetPort t0 font dz).I = 0 ∧ (State.resetPort t0 font dz).pc = 0x200 ∧
    (∀ j : Fin 16, (State.resetPort t0 font dz).stack[j.val] = 0) ∧ (State.resetPort t0 font dz).sp = 0 ∧
    (State.resetPort t0 font dz).dt = 0 ∧ (State.resetPort t0 font dz).st = 0 ∧
    (∀ (x : Fin 64) (y : Fin 32), (State.resetPort t0 font dz).disp[x.val][y.val] = false) ∧
    (∀ k : KeyIdx, (State.resetPort t0 font dz).keys[k.val] = false) ∧
    (State.resetPort t0 font dz).lastTick = t0 ∧ (State.resetPort t0 font dz).mode = .running

/-- 70_reset_and_hazards.md R384, R385, R386 [decision D23]: once, before the first step, the load port copies a program
that ends within memory to 0x200 on and writes no other state, and refuses a longer one. `loaded` is the model's own
mark (log entry 10). -/
def Obligations.LoadCopiesTheProgram : Prop :=
  ∀ (s : State) (prog : List Byte), s.mem.wf s.font = true → s.loaded = false → s.stepNo = 0 →
    (0x200 + prog.length ≤ 4096 →
      ∃ m : Memory, s.load prog = .next { s with mem := m, loaded := true } ∧
        (∀ i (h : i < prog.length), m.read s.font (0x200 + i) = prog[i]) ∧
        ∀ a, a < 0x200 ∨ 0x200 + prog.length ≤ a → m.read s.font a = s.byte a) ∧
    (4096 < 0x200 + prog.length → s.load prog = .refused (.programTooLong prog.length))

/-- 70_reset_and_hazards.md R385, R386, 45_timers_keypad.md R318, 43_display.md R243 [decisions D21, D23]: what the
ports refuse, and what setKey and the reads answer. -/
def Obligations.HostPortsRefuseContractViolations : Prop :=
  (∀ (s : State) (prog : List Byte), 0xE00 < prog.length → ∃ r, s.load prog = .refused r) ∧
  (∀ (s : State) (prog : List Byte), s.loaded = true ∨ s.stepNo ≠ 0 → ∃ r, s.load prog = .refused r) ∧
  (∀ (s : State) (k : Nat) (p : Bool), 0xF < k → ∃ r, s.setKey k p = .refused r) ∧
  (∀ (s : State) (k : KeyIdx) (p : Bool), s.setKey k.val p = .next { s with keys := s.keys.set k.val p }) ∧
  (∀ (s : State) (x y : Nat), 64 ≤ x ∨ 32 ≤ y → ∃ r, s.pixelAt x y = .error r) ∧
  (∀ (s : State) (x : Fin 64) (y : Fin 32), s.pixelAt x.val y.val = .ok s.disp[x.val][y.val]) ∧
  (∀ s : State, s.readTimers = (s.dt, s.st))
end

