-- ==== Sys2Proof/Laws/State.lean ====
section
/-! SUPPORT. One lemma per field per update of State, so that no later proof unfolds a record update. -/

namespace Sys2Proof.Machine

variable (s : State)

@[simp] theorem State.setV_mem (x : Reg) (b : Byte) : (s.setV x b).mem = s.mem := rfl
@[simp] theorem State.setV_V (x : Reg) (b : Byte) : (s.setV x b).V = s.V.set x.val b := rfl
@[simp] theorem State.setV_I (x : Reg) (b : Byte) : (s.setV x b).I = s.I := rfl
@[simp] theorem State.setV_pc (x : Reg) (b : Byte) : (s.setV x b).pc = s.pc := rfl
@[simp] theorem State.setV_stack (x : Reg) (b : Byte) : (s.setV x b).stack = s.stack := rfl
@[simp] theorem State.setV_sp (x : Reg) (b : Byte) : (s.setV x b).sp = s.sp := rfl
@[simp] theorem State.setV_dt (x : Reg) (b : Byte) : (s.setV x b).dt = s.dt := rfl
@[simp] theorem State.setV_st (x : Reg) (b : Byte) : (s.setV x b).st = s.st := rfl
@[simp] theorem State.setV_disp (x : Reg) (b : Byte) : (s.setV x b).disp = s.disp := rfl
@[simp] theorem State.setV_keys (x : Reg) (b : Byte) : (s.setV x b).keys = s.keys := rfl
@[simp] theorem State.setV_lastTick (x : Reg) (b : Byte) : (s.setV x b).lastTick = s.lastTick := rfl
@[simp] theorem State.setV_mode (x : Reg) (b : Byte) : (s.setV x b).mode = s.mode := rfl
@[simp] theorem State.setV_font (x : Reg) (b : Byte) : (s.setV x b).font = s.font := rfl
@[simp] theorem State.setV_drawZeroHeight (x : Reg) (b : Byte) : (s.setV x b).drawZeroHeight = s.drawZeroHeight := rfl
@[simp] theorem State.setV_now (x : Reg) (b : Byte) : (s.setV x b).now = s.now := rfl
@[simp] theorem State.setV_rnd (x : Reg) (b : Byte) : (s.setV x b).rnd = s.rnd := rfl
@[simp] theorem State.setV_keyPick (x : Reg) (b : Byte) : (s.setV x b).keyPick = s.keyPick := rfl
@[simp] theorem State.setV_result (x : Reg) (b : Byte) : (s.setV x b).result = s.result := rfl
@[simp] theorem State.setV_schedule (x : Reg) (b : Byte) : (s.setV x b).schedule = s.schedule := rfl
@[simp] theorem State.setV_stepNo (x : Reg) (b : Byte) : (s.setV x b).stepNo = s.stepNo := rfl
@[simp] theorem State.setV_loaded (x : Reg) (b : Byte) : (s.setV x b).loaded = s.loaded := rfl

@[simp] theorem State.setVF_mem (b : Byte) : (s.setVF b).mem = s.mem := rfl
@[simp] theorem State.setVF_V (b : Byte) : (s.setVF b).V = s.V.set 15 b := rfl
@[simp] theorem State.setVF_I (b : Byte) : (s.setVF b).I = s.I := rfl
@[simp] theorem State.setVF_pc (b : Byte) : (s.setVF b).pc = s.pc := rfl
@[simp] theorem State.setVF_stack (b : Byte) : (s.setVF b).stack = s.stack := rfl
@[simp] theorem State.setVF_sp (b : Byte) : (s.setVF b).sp = s.sp := rfl
@[simp] theorem State.setVF_dt (b : Byte) : (s.setVF b).dt = s.dt := rfl
@[simp] theorem State.setVF_st (b : Byte) : (s.setVF b).st = s.st := rfl
@[simp] theorem State.setVF_disp (b : Byte) : (s.setVF b).disp = s.disp := rfl
@[simp] theorem State.setVF_keys (b : Byte) : (s.setVF b).keys = s.keys := rfl
@[simp] theorem State.setVF_lastTick (b : Byte) : (s.setVF b).lastTick = s.lastTick := rfl
@[simp] theorem State.setVF_mode (b : Byte) : (s.setVF b).mode = s.mode := rfl
@[simp] theorem State.setVF_font (b : Byte) : (s.setVF b).font = s.font := rfl
@[simp] theorem State.setVF_drawZeroHeight (b : Byte) : (s.setVF b).drawZeroHeight = s.drawZeroHeight := rfl
@[simp] theorem State.setVF_now (b : Byte) : (s.setVF b).now = s.now := rfl
@[simp] theorem State.setVF_rnd (b : Byte) : (s.setVF b).rnd = s.rnd := rfl
@[simp] theorem State.setVF_keyPick (b : Byte) : (s.setVF b).keyPick = s.keyPick := rfl
@[simp] theorem State.setVF_result (b : Byte) : (s.setVF b).result = s.result := rfl
@[simp] theorem State.setVF_schedule (b : Byte) : (s.setVF b).schedule = s.schedule := rfl
@[simp] theorem State.setVF_stepNo (b : Byte) : (s.setVF b).stepNo = s.stepNo := rfl
@[simp] theorem State.setVF_loaded (b : Byte) : (s.setVF b).loaded = s.loaded := rfl

@[simp] theorem State.setResultFlag_mem (x : Reg) (r f : Byte) : (s.setResultFlag x r f).mem = s.mem := rfl
@[simp] theorem State.setResultFlag_V (x : Reg) (r f : Byte) : (s.setResultFlag x r f).V = (s.V.set x.val r).set 15 f := rfl
@[simp] theorem State.setResultFlag_I (x : Reg) (r f : Byte) : (s.setResultFlag x r f).I = s.I := rfl
@[simp] theorem State.setResultFlag_pc (x : Reg) (r f : Byte) : (s.setResultFlag x r f).pc = s.pc := rfl
@[simp] theorem State.setResultFlag_stack (x : Reg) (r f : Byte) : (s.setResultFlag x r f).stack = s.stack := rfl
@[simp] theorem State.setResultFlag_sp (x : Reg) (r f : Byte) : (s.setResultFlag x r f).sp = s.sp := rfl
@[simp] theorem State.setResultFlag_dt (x : Reg) (r f : Byte) : (s.setResultFlag x r f).dt = s.dt := rfl
@[simp] theorem State.setResultFlag_st (x : Reg) (r f : Byte) : (s.setResultFlag x r f).st = s.st := rfl
@[simp] theorem State.setResultFlag_disp (x : Reg) (r f : Byte) : (s.setResultFlag x r f).disp = s.disp := rfl
@[simp] theorem State.setResultFlag_keys (x : Reg) (r f : Byte) : (s.setResultFlag x r f).keys = s.keys := rfl
@[simp] theorem State.setResultFlag_lastTick (x : Reg) (r f : Byte) : (s.setResultFlag x r f).lastTick = s.lastTick := rfl
@[simp] theorem State.setResultFlag_mode (x : Reg) (r f : Byte) : (s.setResultFlag x r f).mode = s.mode := rfl
@[simp] theorem State.setResultFlag_font (x : Reg) (r f : Byte) : (s.setResultFlag x r f).font = s.font := rfl
@[simp] theorem State.setResultFlag_drawZeroHeight (x : Reg) (r f : Byte) : (s.setResultFlag x r f).drawZeroHeight = s.drawZeroHeight := rfl
@[simp] theorem State.setResultFlag_now (x : Reg) (r f : Byte) : (s.setResultFlag x r f).now = s.now := rfl
@[simp] theorem State.setResultFlag_rnd (x : Reg) (r f : Byte) : (s.setResultFlag x r f).rnd = s.rnd := rfl
@[simp] theorem State.setResultFlag_keyPick (x : Reg) (r f : Byte) : (s.setResultFlag x r f).keyPick = s.keyPick := rfl
@[simp] theorem State.setResultFlag_result (x : Reg) (r f : Byte) : (s.setResultFlag x r f).result = s.result := rfl
@[simp] theorem State.setResultFlag_schedule (x : Reg) (r f : Byte) : (s.setResultFlag x r f).schedule = s.schedule := rfl
@[simp] theorem State.setResultFlag_stepNo (x : Reg) (r f : Byte) : (s.setResultFlag x r f).stepNo = s.stepNo := rfl
@[simp] theorem State.setResultFlag_loaded (x : Reg) (r f : Byte) : (s.setResultFlag x r f).loaded = s.loaded := rfl

@[simp] theorem State.loadRegs_mem (x : Reg) (a : Nat) : (s.loadRegs x a).mem = s.mem := rfl
@[simp] theorem State.loadRegs_I (x : Reg) (a : Nat) : (s.loadRegs x a).I = s.I := rfl
@[simp] theorem State.loadRegs_pc (x : Reg) (a : Nat) : (s.loadRegs x a).pc = s.pc := rfl
@[simp] theorem State.loadRegs_stack (x : Reg) (a : Nat) : (s.loadRegs x a).stack = s.stack := rfl
@[simp] theorem State.loadRegs_sp (x : Reg) (a : Nat) : (s.loadRegs x a).sp = s.sp := rfl
@[simp] theorem State.loadRegs_dt (x : Reg) (a : Nat) : (s.loadRegs x a).dt = s.dt := rfl
@[simp] theorem State.loadRegs_st (x : Reg) (a : Nat) : (s.loadRegs x a).st = s.st := rfl
@[simp] theorem State.loadRegs_disp (x : Reg) (a : Nat) : (s.loadRegs x a).disp = s.disp := rfl
@[simp] theorem State.loadRegs_keys (x : Reg) (a : Nat) : (s.loadRegs x a).keys = s.keys := rfl
@[simp] theorem State.loadRegs_lastTick (x : Reg) (a : Nat) : (s.loadRegs x a).lastTick = s.lastTick := rfl
@[simp] theorem State.loadRegs_mode (x : Reg) (a : Nat) : (s.loadRegs x a).mode = s.mode := rfl
@[simp] theorem State.loadRegs_font (x : Reg) (a : Nat) : (s.loadRegs x a).font = s.font := rfl
@[simp] theorem State.loadRegs_drawZeroHeight (x : Reg) (a : Nat) : (s.loadRegs x a).drawZeroHeight = s.drawZeroHeight := rfl
@[simp] theorem State.loadRegs_now (x : Reg) (a : Nat) : (s.loadRegs x a).now = s.now := rfl
@[simp] theorem State.loadRegs_rnd (x : Reg) (a : Nat) : (s.loadRegs x a).rnd = s.rnd := rfl
@[simp] theorem State.loadRegs_keyPick (x : Reg) (a : Nat) : (s.loadRegs x a).keyPick = s.keyPick := rfl
@[simp] theorem State.loadRegs_result (x : Reg) (a : Nat) : (s.loadRegs x a).result = s.result := rfl
@[simp] theorem State.loadRegs_schedule (x : Reg) (a : Nat) : (s.loadRegs x a).schedule = s.schedule := rfl
@[simp] theorem State.loadRegs_stepNo (x : Reg) (a : Nat) : (s.loadRegs x a).stepNo = s.stepNo := rfl
@[simp] theorem State.loadRegs_loaded (x : Reg) (a : Nat) : (s.loadRegs x a).loaded = s.loaded := rfl

@[simp] theorem State.storeByte_mem (a : Nat) (b : Byte) : (s.storeByte a b).mem = s.mem.write s.font a b := rfl
@[simp] theorem State.storeByte_V (a : Nat) (b : Byte) : (s.storeByte a b).V = s.V := rfl
@[simp] theorem State.storeByte_I (a : Nat) (b : Byte) : (s.storeByte a b).I = s.I := rfl
@[simp] theorem State.storeByte_pc (a : Nat) (b : Byte) : (s.storeByte a b).pc = s.pc := rfl
@[simp] theorem State.storeByte_stack (a : Nat) (b : Byte) : (s.storeByte a b).stack = s.stack := rfl
@[simp] theorem State.storeByte_sp (a : Nat) (b : Byte) : (s.storeByte a b).sp = s.sp := rfl
@[simp] theorem State.storeByte_dt (a : Nat) (b : Byte) : (s.storeByte a b).dt = s.dt := rfl
@[simp] theorem State.storeByte_st (a : Nat) (b : Byte) : (s.storeByte a b).st = s.st := rfl
@[simp] theorem State.storeByte_disp (a : Nat) (b : Byte) : (s.storeByte a b).disp = s.disp := rfl
@[simp] theorem State.storeByte_keys (a : Nat) (b : Byte) : (s.storeByte a b).keys = s.keys := rfl
@[simp] theorem State.storeByte_lastTick (a : Nat) (b : Byte) : (s.storeByte a b).lastTick = s.lastTick := rfl
@[simp] theorem State.storeByte_mode (a : Nat) (b : Byte) : (s.storeByte a b).mode = s.mode := rfl
@[simp] theorem State.storeByte_font (a : Nat) (b : Byte) : (s.storeByte a b).font = s.font := rfl
@[simp] theorem State.storeByte_drawZeroHeight (a : Nat) (b : Byte) : (s.storeByte a b).drawZeroHeight = s.drawZeroHeight := rfl
@[simp] theorem State.storeByte_now (a : Nat) (b : Byte) : (s.storeByte a b).now = s.now := rfl
@[simp] theorem State.storeByte_rnd (a : Nat) (b : Byte) : (s.storeByte a b).rnd = s.rnd := rfl
@[simp] theorem State.storeByte_keyPick (a : Nat) (b : Byte) : (s.storeByte a b).keyPick = s.keyPick := rfl
@[simp] theorem State.storeByte_result (a : Nat) (b : Byte) : (s.storeByte a b).result = s.result := rfl
@[simp] theorem State.storeByte_schedule (a : Nat) (b : Byte) : (s.storeByte a b).schedule = s.schedule := rfl
@[simp] theorem State.storeByte_stepNo (a : Nat) (b : Byte) : (s.storeByte a b).stepNo = s.stepNo := rfl
@[simp] theorem State.storeByte_loaded (a : Nat) (b : Byte) : (s.storeByte a b).loaded = s.loaded := rfl

@[simp] theorem State.enterFault_mem (r : Fault) : (s.enterFault r).mem = s.mem := rfl
@[simp] theorem State.enterFault_V (r : Fault) : (s.enterFault r).V = s.V := rfl
@[simp] theorem State.enterFault_I (r : Fault) : (s.enterFault r).I = s.I := rfl
@[simp] theorem State.enterFault_pc (r : Fault) : (s.enterFault r).pc = s.pc := rfl
@[simp] theorem State.enterFault_stack (r : Fault) : (s.enterFault r).stack = s.stack := rfl
@[simp] theorem State.enterFault_sp (r : Fault) : (s.enterFault r).sp = s.sp := rfl
@[simp] theorem State.enterFault_dt (r : Fault) : (s.enterFault r).dt = s.dt := rfl
@[simp] theorem State.enterFault_st (r : Fault) : (s.enterFault r).st = s.st := rfl
@[simp] theorem State.enterFault_disp (r : Fault) : (s.enterFault r).disp = s.disp := rfl
@[simp] theorem State.enterFault_keys (r : Fault) : (s.enterFault r).keys = s.keys := rfl
@[simp] theorem State.enterFault_lastTick (r : Fault) : (s.enterFault r).lastTick = s.lastTick := rfl
@[simp] theorem State.enterFault_mode (r : Fault) : (s.enterFault r).mode = .faulted r := rfl
@[simp] theorem State.enterFault_font (r : Fault) : (s.enterFault r).font = s.font := rfl
@[simp] theorem State.enterFault_drawZeroHeight (r : Fault) : (s.enterFault r).drawZeroHeight = s.drawZeroHeight := rfl
@[simp] theorem State.enterFault_now (r : Fault) : (s.enterFault r).now = s.now := rfl
@[simp] theorem State.enterFault_rnd (r : Fault) : (s.enterFault r).rnd = s.rnd := rfl
@[simp] theorem State.enterFault_keyPick (r : Fault) : (s.enterFault r).keyPick = s.keyPick := rfl
@[simp] theorem State.enterFault_result (r : Fault) : (s.enterFault r).result = some (.fault r) := rfl
@[simp] theorem State.enterFault_schedule (r : Fault) : (s.enterFault r).schedule = s.schedule := rfl
@[simp] theorem State.enterFault_stepNo (r : Fault) : (s.enterFault r).stepNo = s.stepNo := rfl
@[simp] theorem State.enterFault_loaded (r : Fault) : (s.enterFault r).loaded = s.loaded := rfl

@[simp] theorem State.tick_mem : (s.tick).mem = s.mem := rfl
@[simp] theorem State.tick_V : (s.tick).V = s.V := rfl
@[simp] theorem State.tick_I : (s.tick).I = s.I := rfl
@[simp] theorem State.tick_pc : (s.tick).pc = s.pc := rfl
@[simp] theorem State.tick_stack : (s.tick).stack = s.stack := rfl
@[simp] theorem State.tick_sp : (s.tick).sp = s.sp := rfl
@[simp] theorem State.tick_dt : (s.tick).dt = if s.tickDue then timerDown s.dt else s.dt := rfl
@[simp] theorem State.tick_st : (s.tick).st = if s.tickDue then timerDown s.st else s.st := rfl
@[simp] theorem State.tick_disp : (s.tick).disp = s.disp := rfl
@[simp] theorem State.tick_keys : (s.tick).keys = s.keys := rfl
@[simp] theorem State.tick_lastTick : (s.tick).lastTick = if s.tickDue then s.now else s.lastTick := rfl
@[simp] theorem State.tick_mode : (s.tick).mode = s.mode := rfl
@[simp] theorem State.tick_font : (s.tick).font = s.font := rfl
@[simp] theorem State.tick_drawZeroHeight : (s.tick).drawZeroHeight = s.drawZeroHeight := rfl
@[simp] theorem State.tick_now : (s.tick).now = s.now := rfl
@[simp] theorem State.tick_rnd : (s.tick).rnd = s.rnd := rfl
@[simp] theorem State.tick_keyPick : (s.tick).keyPick = s.keyPick := rfl
@[simp] theorem State.tick_result : (s.tick).result = s.result := rfl
@[simp] theorem State.tick_schedule : (s.tick).schedule = s.schedule := rfl
@[simp] theorem State.tick_stepNo : (s.tick).stepNo = s.stepNo := rfl
@[simp] theorem State.tick_loaded : (s.tick).loaded = s.loaded := rfl

@[simp] theorem State.putKey_mem (k : KeyIdx) (p : Bool) : (s.putKey k p).mem = s.mem := rfl
@[simp] theorem State.putKey_V (k : KeyIdx) (p : Bool) : (s.putKey k p).V = s.V := rfl
@[simp] theorem State.putKey_I (k : KeyIdx) (p : Bool) : (s.putKey k p).I = s.I := rfl
@[simp] theorem State.putKey_pc (k : KeyIdx) (p : Bool) : (s.putKey k p).pc = s.pc := rfl
@[simp] theorem State.putKey_stack (k : KeyIdx) (p : Bool) : (s.putKey k p).stack = s.stack := rfl
@[simp] theorem State.putKey_sp (k : KeyIdx) (p : Bool) : (s.putKey k p).sp = s.sp := rfl
@[simp] theorem State.putKey_dt (k : KeyIdx) (p : Bool) : (s.putKey k p).dt = s.dt := rfl
@[simp] theorem State.putKey_st (k : KeyIdx) (p : Bool) : (s.putKey k p).st = s.st := rfl
@[simp] theorem State.putKey_disp (k : KeyIdx) (p : Bool) : (s.putKey k p).disp = s.disp := rfl
@[simp] theorem State.putKey_keys (k : KeyIdx) (p : Bool) : (s.putKey k p).keys = s.keys.set k.val p := rfl
@[simp] theorem State.putKey_lastTick (k : KeyIdx) (p : Bool) : (s.putKey k p).lastTick = s.lastTick := rfl
@[simp] theorem State.putKey_mode (k : KeyIdx) (p : Bool) : (s.putKey k p).mode = s.mode := rfl
@[simp] theorem State.putKey_font (k : KeyIdx) (p : Bool) : (s.putKey k p).font = s.font := rfl
@[simp] theorem State.putKey_drawZeroHeight (k : KeyIdx) (p : Bool) : (s.putKey k p).drawZeroHeight = s.drawZeroHeight := rfl
@[simp] theorem State.putKey_now (k : KeyIdx) (p : Bool) : (s.putKey k p).now = s.now := rfl
@[simp] theorem State.putKey_rnd (k : KeyIdx) (p : Bool) : (s.putKey k p).rnd = s.rnd := rfl
@[simp] theorem State.putKey_keyPick (k : KeyIdx) (p : Bool) : (s.putKey k p).keyPick = s.keyPick := rfl
@[simp] theorem State.putKey_result (k : KeyIdx) (p : Bool) : (s.putKey k p).result = s.result := rfl
@[simp] theorem State.putKey_schedule (k : KeyIdx) (p : Bool) : (s.putKey k p).schedule = s.schedule := rfl
@[simp] theorem State.putKey_stepNo (k : KeyIdx) (p : Bool) : (s.putKey k p).stepNo = s.stepNo := rfl
@[simp] theorem State.putKey_loaded (k : KeyIdx) (p : Bool) : (s.putKey k p).loaded = s.loaded := rfl

@[simp] theorem State.hostTurn_mem : (s.hostTurn).mem = s.mem := rfl
@[simp] theorem State.hostTurn_V : (s.hostTurn).V = s.V := rfl
@[simp] theorem State.hostTurn_I : (s.hostTurn).I = s.I := rfl
@[simp] theorem State.hostTurn_pc : (s.hostTurn).pc = s.pc := rfl
@[simp] theorem State.hostTurn_stack : (s.hostTurn).stack = s.stack := rfl
@[simp] theorem State.hostTurn_sp : (s.hostTurn).sp = s.sp := rfl
@[simp] theorem State.hostTurn_dt : (s.hostTurn).dt = s.dt := rfl
@[simp] theorem State.hostTurn_st : (s.hostTurn).st = s.st := rfl
@[simp] theorem State.hostTurn_disp : (s.hostTurn).disp = s.disp := rfl
@[simp] theorem State.hostTurn_keys : (s.hostTurn).keys = writeKeys s.keys s.comingTurn.keyWrites := rfl
@[simp] theorem State.hostTurn_lastTick : (s.hostTurn).lastTick = s.lastTick := rfl
@[simp] theorem State.hostTurn_mode : (s.hostTurn).mode = s.mode := rfl
@[simp] theorem State.hostTurn_font : (s.hostTurn).font = s.font := rfl
@[simp] theorem State.hostTurn_drawZeroHeight : (s.hostTurn).drawZeroHeight = s.drawZeroHeight := rfl
@[simp] theorem State.hostTurn_now : (s.hostTurn).now = s.comingTurn.now := rfl
@[simp] theorem State.hostTurn_rnd : (s.hostTurn).rnd = s.comingTurn.rnd := rfl
@[simp] theorem State.hostTurn_keyPick : (s.hostTurn).keyPick = s.comingTurn.keyPick := rfl
@[simp] theorem State.hostTurn_result : (s.hostTurn).result = s.result := rfl
@[simp] theorem State.hostTurn_schedule : (s.hostTurn).schedule = s.schedule.tail := rfl
@[simp] theorem State.hostTurn_stepNo : (s.hostTurn).stepNo = s.stepNo + 1 := rfl
@[simp] theorem State.hostTurn_loaded : (s.hostTurn).loaded = s.loaded := rfl

@[simp] theorem State.storeBytes_V (bs : List Byte) : ∀ (s : State) (a : Nat), (s.storeBytes a bs).V = s.V := by
  induction bs with
  | nil => intro s a; rfl
  | cons b bs ih => intro s a; exact ih _ _
@[simp] theorem State.storeBytes_I (bs : List Byte) : ∀ (s : State) (a : Nat), (s.storeBytes a bs).I = s.I := by
  induction bs with
  | nil => intro s a; rfl
  | cons b bs ih => intro s a; exact ih _ _
@[simp] theorem State.storeBytes_pc (bs : List Byte) : ∀ (s : State) (a : Nat), (s.storeBytes a bs).pc = s.pc := by
  induction bs with
  | nil => intro s a; rfl
  | cons b bs ih => intro s a; exact ih _ _
@[simp] theorem State.storeBytes_stack (bs : List Byte) : ∀ (s : State) (a : Nat), (s.storeBytes a bs).stack = s.stack := by
  induction bs with
  | nil => intro s a; rfl
  | cons b bs ih => intro s a; exact ih _ _
@[simp] theorem State.storeBytes_sp (bs : List Byte) : ∀ (s : State) (a : Nat), (s.storeBytes a bs).sp = s.sp := by
  induction bs with
  | nil => intro s a; rfl
  | cons b bs ih => intro s a; exact ih _ _
@[simp] theorem State.storeBytes_dt (bs : List Byte) : ∀ (s : State) (a : Nat), (s.storeBytes a bs).dt = s.dt := by
  induction bs with
  | nil => intro s a; rfl
  | cons b bs ih => intro s a; exact ih _ _
@[simp] theorem State.storeBytes_st (bs : List Byte) : ∀ (s : State) (a : Nat), (s.storeBytes a bs).st = s.st := by
  induction bs with
  | nil => intro s a; rfl
  | cons b bs ih => intro s a; exact ih _ _
@[simp] theorem State.storeBytes_disp (bs : List Byte) : ∀ (s : State) (a : Nat), (s.storeBytes a bs).disp = s.disp := by
  induction bs with
  | nil => intro s a; rfl
  | cons b bs ih => intro s a; exact ih _ _
@[simp] theorem State.storeBytes_keys (bs : List Byte) : ∀ (s : State) (a : Nat), (s.storeBytes a bs).keys = s.keys := by
  induction bs with
  | nil => intro s a; rfl
  | cons b bs ih => intro s a; exact ih _ _
@[simp] theorem State.storeBytes_lastTick (bs : List Byte) : ∀ (s : State) (a : Nat), (s.storeBytes a bs).lastTick = s.lastTick := by
  induction bs with
  | nil => intro s a; rfl
  | cons b bs ih => intro s a; exact ih _ _
@[simp] theorem State.storeBytes_mode (bs : List Byte) : ∀ (s : State) (a : Nat), (s.storeBytes a bs).mode = s.mode := by
  induction bs with
  | nil => intro s a; rfl
  | cons b bs ih => intro s a; exact ih _ _
@[simp] theorem State.storeBytes_font (bs : List Byte) : ∀ (s : State) (a : Nat), (s.storeBytes a bs).font = s.font := by
  induction bs with
  | nil => intro s a; rfl
  | cons b bs ih => intro s a; exact ih _ _
@[simp] theorem State.storeBytes_drawZeroHeight (bs : List Byte) : ∀ (s : State) (a : Nat), (s.storeBytes a bs).drawZeroHeight = s.drawZeroHeight := by
  induction bs with
  | nil => intro s a; rfl
  | cons b bs ih => intro s a; exact ih _ _
@[simp] theorem State.storeBytes_now (bs : List Byte) : ∀ (s : State) (a : Nat), (s.storeBytes a bs).now = s.now := by
  induction bs with
  | nil => intro s a; rfl
  | cons b bs ih => intro s a; exact ih _ _
@[simp] theorem State.storeBytes_rnd (bs : List Byte) : ∀ (s : State) (a : Nat), (s.storeBytes a bs).rnd = s.rnd := by
  induction bs with
  | nil => intro s a; rfl
  | cons b bs ih => intro s a; exact ih _ _
@[simp] theorem State.storeBytes_keyPick (bs : List Byte) : ∀ (s : State) (a : Nat), (s.storeBytes a bs).keyPick = s.keyPick := by
  induction bs with
  | nil => intro s a; rfl
  | cons b bs ih => intro s a; exact ih _ _
@[simp] theorem State.storeBytes_result (bs : List Byte) : ∀ (s : State) (a : Nat), (s.storeBytes a bs).result = s.result := by
  induction bs with
  | nil => intro s a; rfl
  | cons b bs ih => intro s a; exact ih _ _
@[simp] theorem State.storeBytes_schedule (bs : List Byte) : ∀ (s : State) (a : Nat), (s.storeBytes a bs).schedule = s.schedule := by
  induction bs with
  | nil => intro s a; rfl
  | cons b bs ih => intro s a; exact ih _ _
@[simp] theorem State.storeBytes_stepNo (bs : List Byte) : ∀ (s : State) (a : Nat), (s.storeBytes a bs).stepNo = s.stepNo := by
  induction bs with
  | nil => intro s a; rfl
  | cons b bs ih => intro s a; exact ih _ _
@[simp] theorem State.storeBytes_loaded (bs : List Byte) : ∀ (s : State) (a : Nat), (s.storeBytes a bs).loaded = s.loaded := by
  induction bs with
  | nil => intro s a; rfl
  | cons b bs ih => intro s a; exact ih _ _

end Sys2Proof.Machine
end

