-- ==== Sys2Proof/Laws/Memory.lean ====
section
/-! SUPPORT. The laws of memory: read after write, the canonical form kept, the range checks. -/

namespace Sys2Proof.Machine

/-! ## Canonical form -/

theorem Memory.wfFrom_cons {font : Font} {lo a : Nat} {v : Byte} {m : Memory} :
    Memory.wfFrom font lo ((a, v) :: m) = true ↔
      lo ≤ a ∧ v ≠ resetContents font a ∧ Memory.wfFrom font (a + 1) m = true := by
  simp [Memory.wfFrom, and_assoc]

theorem Memory.wfFrom_mono {font : Font} {lo lo' : Nat} {m : Memory} (h : lo' ≤ lo)
    (hw : Memory.wfFrom font lo m = true) : Memory.wfFrom font lo' m = true := by
  cases m with
  | nil => rfl
  | cons c m =>
    obtain ⟨h1, h2, h3⟩ := Memory.wfFrom_cons.1 hw
    exact Memory.wfFrom_cons.2 ⟨h.trans h1, h2, h3⟩

/-- A write keeps the canonical form. -/
theorem Memory.wfFrom_write {font : Font} {a : Nat} {v : Byte} :
    ∀ {m : Memory} {lo : Nat}, lo ≤ a → Memory.wfFrom font lo m = true →
      Memory.wfFrom font lo (m.write font a v) = true
  | [], lo, hlo, _ => by
    unfold Memory.write
    split
    · rfl
    · next hv => exact Memory.wfFrom_cons.2 ⟨hlo, hv, rfl⟩
  | (b, w) :: m, lo, hlo, hw => by
    obtain ⟨h1, h2, h3⟩ := Memory.wfFrom_cons.1 hw
    unfold Memory.write
    split_ifs with hab hv hab' hv
    · exact hw
    · exact Memory.wfFrom_cons.2 ⟨hlo, hv, Memory.wfFrom_cons.2 ⟨hab, h2, h3⟩⟩
    · exact Memory.wfFrom_mono (by omega) h3
    · subst hab'
      exact Memory.wfFrom_cons.2 ⟨h1, hv, h3⟩
    · exact Memory.wfFrom_cons.2 ⟨h1, h2, Memory.wfFrom_write (by omega) h3⟩

theorem Memory.wf_write {font : Font} {m : Memory} (a : Nat) (v : Byte) (h : m.wf font = true) :
    (m.write font a v).wf font = true :=
  Memory.wfFrom_write (Nat.zero_le a) h

/-- An address below the first listed one is not listed. -/
theorem Memory.read_of_lt {font : Font} {a : Nat} :
    ∀ {m : Memory} {lo : Nat}, a < lo → Memory.wfFrom font lo m = true →
      m.read font a = resetContents font a
  | [], _, _, _ => rfl
  | (b, w) :: m, lo, ha, hw => by
    obtain ⟨h1, -, h3⟩ := Memory.wfFrom_cons.1 hw
    rw [Memory.read, if_neg (by omega)]
    exact Memory.read_of_lt (by omega) h3

/-! ## Read after write -/

theorem Memory.read_write_other {font : Font} {a a' : Nat} {v : Byte} (h : a' ≠ a) :
    ∀ m : Memory, (m.write font a v).read font a' = m.read font a'
  | [] => by
    unfold Memory.write
    split
    · rfl
    · simp [Memory.read, h]
  | (b, w) :: m => by
    unfold Memory.write
    split_ifs with hab hv hab' hv
    · rfl
    · rw [Memory.read, if_neg h]
    · rw [Memory.read, if_neg (by omega)]
    · simp [Memory.read, h, ← hab']
    · simp [Memory.read, Memory.read_write_other h m]

theorem Memory.read_write_same {font : Font} {a : Nat} {v : Byte} :
    ∀ {m : Memory} {lo : Nat}, Memory.wfFrom font lo m = true → (m.write font a v).read font a = v
  | [], _, _ => by
    unfold Memory.write
    split
    · next h => simp [Memory.read, h]
    · simp [Memory.read]
  | (b, w) :: m, lo, hw => by
    obtain ⟨-, -, h3⟩ := Memory.wfFrom_cons.1 hw
    unfold Memory.write
    split_ifs with hab hv hab' hv
    · rw [Memory.read, if_neg (by omega), Memory.read_of_lt (by omega) h3, hv]
    · simp [Memory.read]
    · rw [Memory.read_of_lt (by omega) h3, hv]
    · simp [Memory.read]
    · rw [Memory.read, if_neg hab', Memory.read_write_same h3]

/-! ## The bytes of a state -/

@[simp] theorem State.byte_storeByte_other (s : State) {a a' : Nat} (v : Byte) (h : a' ≠ a) :
    (s.storeByte a v).byte a' = s.byte a' :=
  Memory.read_write_other h _

theorem State.byte_storeByte_same (s : State) (a : Nat) (v : Byte) (h : s.mem.wf s.font = true) :
    (s.storeByte a v).byte a = v :=
  Memory.read_write_same h

theorem State.wf_storeByte (s : State) (a : Nat) (v : Byte) (h : s.mem.wf s.font = true) :
    (s.storeByte a v).mem.wf s.font = true :=
  Memory.wf_write a v h

/-- What a range store leaves alone. -/
theorem State.byte_storeBytes_outside {a' : Nat} : ∀ (bs : List Byte) (s : State) (a : Nat),
    (a' < a ∨ a + bs.length ≤ a') → (s.storeBytes a bs).byte a' = s.byte a'
  | [], _, _, _ => rfl
  | b :: bs, s, a, h => by
    rw [List.length_cons] at h
    rw [State.storeBytes, State.byte_storeBytes_outside bs _ _ (by omega), State.byte_storeByte_other _ _ (by omega)]

/-- What a range store writes. -/
theorem State.byte_storeBytes_inside : ∀ (bs : List Byte) (s : State) (a k : Nat) (hk : k < bs.length),
    s.mem.wf s.font = true → (s.storeBytes a bs).byte (a + k) = bs[k]
  | b :: bs, s, a, 0, _, hw => by
    rw [State.storeBytes, State.byte_storeBytes_outside bs _ _ (by omega)]
    exact State.byte_storeByte_same s a b hw
  | b :: bs, s, a, k + 1, hk, hw => by
    have := State.byte_storeBytes_inside bs (s.storeByte a b) (a + 1) k (by simpa using hk)
      (by simpa using State.wf_storeByte s a b hw)
    simpa [State.storeBytes, Nat.add_assoc, Nat.add_comm 1 k] using this

/-- A range store keeps the canonical form. -/
theorem State.wf_storeBytes : ∀ (bs : List Byte) (s : State) (a : Nat),
    s.mem.wf s.font = true → (s.storeBytes a bs).mem.wf s.font = true
  | [], _, _, h => h
  | b :: bs, s, a, h => by
    simpa [State.storeBytes] using State.wf_storeBytes bs (s.storeByte a b) (a + 1) (by simpa using State.wf_storeByte s a b h)

/-- Two states with the same memory and `FONT` hold the same bytes. -/
theorem State.byte_congr {s t : State} (hm : t.mem = s.mem) (hf : t.font = s.font) (a : Nat) :
    t.byte a = s.byte a := by
  simp [State.byte, hm, hf]

/-- A byte of the unlisted font region is the byte of `FONT`. -/
theorem Memory.read_unlisted {font : Font} {a : Nat} :
    ∀ {m : Memory}, (∀ c ∈ m, c.1 ≠ a) → m.read font a = resetContents font a
  | [], _ => rfl
  | (b, w) :: m, h => by
    rw [Memory.read, if_neg (fun he => h (b, w) (by simp) he.symm)]
    exact Memory.read_unlisted fun c hc => h c (by simp [hc])

/-- A cell listed after a write was listed before or is the one written. -/
theorem Memory.mem_write {font : Font} {a : Nat} {v : Byte} {c : Host.Cell} :
    ∀ {m : Memory}, c ∈ m.write font a v → c ∈ m ∨ c.1 = a
  | [], h => by
    unfold Memory.write at h
    split at h <;> simp_all
  | (b, w) :: m, h => by
    unfold Memory.write at h
    split_ifs at h with hab hv hab' hv
    · exact .inl h
    · rcases List.mem_cons.1 h with rfl | h
      · exact .inr rfl
      · exact .inl h
    · exact .inl (List.mem_cons_of_mem _ h)
    · rcases List.mem_cons.1 h with rfl | h
      · exact .inr rfl
      · exact .inl (List.mem_cons_of_mem _ h)
    · rcases List.mem_cons.1 h with rfl | h
      · exact .inl (by simp)
      · rcases Memory.mem_write h with h | h
        · exact .inl (List.mem_cons_of_mem _ h)
        · exact .inr h

theorem State.mem_storeBytes {c : Host.Cell} : ∀ (bs : List Byte) (s : State) (a : Nat),
    c ∈ (s.storeBytes a bs).mem → c ∈ s.mem ∨ (a ≤ c.1 ∧ c.1 < a + bs.length)
  | [], _, _, h => .inl h
  | b :: bs, s, a, h => by
    rcases State.mem_storeBytes bs (s.storeByte a b) (a + 1) h with h | h
    · rcases Memory.mem_write h with h | h
      · exact .inl h
      · exact .inr (by simp [h])
    · exact .inr (by simp only [List.length_cons]; omega)

/-! ## Range checks (20_memory.md R74 to R76) -/

theorem readFault_eq_none {a : Nat} : readFault a = none ↔ a ≤ 0xFFF := by
  simp [readFault]

theorem writeFault_eq_none {a : Nat} : writeFault a = none ↔ 0x04F < a ∧ a ≤ 0xFFF := by
  unfold writeFault
  split_ifs <;> simp <;> omega

/-- A range check passes exactly when every address passes. -/
theorem rangeFault_eq_none {check : Nat → Option Fault} : ∀ {n a : Nat},
    rangeFault check a n = none ↔ ∀ k < n, check (a + k) = none
  | 0, _ => by simp [rangeFault]
  | n + 1, a => by
    rw [rangeFault]
    cases hc : check a with
    | some r =>
      simp only [reduceCtorEq, false_iff]
      intro h
      have := h 0 (by omega)
      simp [hc] at this
    | none =>
      simp only
      rw [rangeFault_eq_none]
      constructor
      · intro h k hk
        cases k with
        | zero => simpa using hc
        | succ k => simpa [Nat.add_assoc, Nat.add_comm 1 k] using h k (by omega)
      · intro h k hk
        simpa [Nat.add_assoc, Nat.add_comm 1 k] using h (k + 1) (by omega)

/-- A range check that fails reports the lowest failing address. -/
theorem rangeFault_eq_some {check : Nat → Option Fault} {r : Fault} : ∀ {n a : Nat},
    rangeFault check a n = some r ↔
      ∃ k < n, check (a + k) = some r ∧ ∀ j < k, check (a + j) = none
  | 0, _ => by simp [rangeFault]
  | n + 1, a => by
    rw [rangeFault]
    cases hc : check a with
    | some r' =>
      constructor
      · intro h
        exact ⟨0, by omega, by simpa [hc] using h, by simp⟩
      · rintro ⟨k, -, hk, hj⟩
        cases k with
        | zero => simpa [hc] using hk
        | succ k => simpa [hc] using hj 0 (by omega)
    | none =>
      simp only
      rw [rangeFault_eq_some]
      constructor
      · rintro ⟨k, hk, h, hj⟩
        refine ⟨k + 1, by omega, by simpa [Nat.add_assoc, Nat.add_comm 1 k] using h, ?_⟩
        intro j hj'
        cases j with
        | zero => simpa using hc
        | succ j => simpa [Nat.add_assoc, Nat.add_comm 1 j] using hj j (by omega)
      · rintro ⟨k, hk, h, hj⟩
        cases k with
        | zero => simp [hc] at h
        | succ k =>
          refine ⟨k, by omega, by simpa [Nat.add_assoc, Nat.add_comm 1 k] using h, ?_⟩
          intro j hj'
          simpa [Nat.add_assoc, Nat.add_comm 1 j] using hj (j + 1) (by omega)

theorem rangeFault_read_eq_none {a n : Nat} : rangeFault readFault a n = none ↔ n = 0 ∨ a + n ≤ 0x1000 := by
  simp only [rangeFault_eq_none, readFault_eq_none]
  constructor
  · intro h
    by_cases hn : n = 0
    · exact .inl hn
    · have := h (n - 1) (by omega)
      omega
  · intro h k hk
    omega

theorem rangeFault_write_eq_none {a n : Nat} :
    rangeFault writeFault a n = none ↔ n = 0 ∨ (0x04F < a ∧ a + n ≤ 0x1000) := by
  simp only [rangeFault_eq_none, writeFault_eq_none]
  constructor
  · intro h
    by_cases hn : n = 0
    · exact .inl hn
    · have h0 := h 0 (by omega)
      have := h (n - 1) (by omega)
      omega
  · intro h k hk
    omega

end Sys2Proof.Machine
end

