-- ==== Sys2Proof/Laws/Ops.lean ====
section
/-! SUPPORT. One lemma per shared operation that says once everything it can do. -/

namespace Sys2Proof.Machine

/-! ## Registers -/

theorem State.v_setV (s : State) (x r : Reg) (b : Byte) : (s.setV x b).v r = if r = x then b else s.v r := by
  by_cases h : r = x
  · subst h
    simp [State.v, State.setV]
  · have : x.val ≠ r.val := fun he => h (Fin.ext he.symm)
    simp [State.v, State.setV, h, this]

@[simp] theorem State.v_setV_same (s : State) (x : Reg) (b : Byte) : (s.setV x b).v x = b := by
  simp [State.v_setV]

/-- The flag wins over the result when x = 0xF. -/
theorem State.v_setResultFlag (s : State) (x r : Reg) (b f : Byte) :
    (s.setResultFlag x b f).v r = if r = 15 then f else if r = x then b else s.v r := by
  simp [State.setResultFlag, State.setVF, State.v_setV]

theorem State.v_loadRegs (s : State) (x r : Reg) (a : Nat) :
    (s.loadRegs x a).v r = if r.val ≤ x.val then s.byte (a + r.val) else s.v r := by
  simp [State.v, State.loadRegs]

theorem State.v_congr {s t : State} (h : t.V = s.V) (r : Reg) : t.v r = s.v r := by
  simp [State.v, h]

theorem State.regsTo_length (s : State) (x : Reg) : (s.regsTo x).length = x.val + 1 := by
  simp [State.regsTo]

theorem State.regsTo_getElem (s : State) (x : Reg) (k : Nat) (h : k < (s.regsTo x).length) :
    (s.regsTo x)[k] = s.v ⟨k, by rw [State.regsTo_length] at h; omega⟩ := by
  simp [State.regsTo, State.v]

/-! ## The call stack -/

/-- A push below 16 entries. -/
theorem State.push_eq_some {s : State} (r : Half) (h : s.sp.val < 16) :
    s.push r = some { s with stack := s.stack.set s.sp.val r, sp := ⟨s.sp.val + 1, by omega⟩ } := by
  simp [State.push, h]

theorem State.push_eq_none {s : State} (r : Half) (h : s.sp.val = 16) : s.push r = none := by
  simp [State.push, h]

theorem State.pop_eq_some {s : State} (h : s.sp.val ≠ 0) :
    s.pop = some ({ s with sp := ⟨s.sp.val - 1, by omega⟩ }, s.stack[s.sp.val - 1]) := by
  simp [State.pop, h]

theorem State.pop_eq_none {s : State} (h : s.sp.val = 0) : s.pop = none := by
  simp [State.pop, h]

/-! ## Next pc -/

theorem State.finish_of_le {s s' : State} {npc : Nat} (res : StepResult) (h : npc ≤ 0xFFF) :
    s.finish s' npc res = { s' with pc := BitVec.ofNat 16 npc, result := some res } := by
  simp [State.finish, Nat.not_lt.2 h]

theorem State.finish_of_gt {s s' : State} {npc : Nat} (res : StepResult) (h : 0xFFF < npc) :
    s.finish s' npc res = s.enterFault (.pcOutOfRange npc) := by
  simp [State.finish, h]

/-- What ending a step can do: write the pc of `s'`, or fault out of `s`. -/
theorem State.finish_cases (s s' : State) (npc : Nat) (res : StepResult) :
    (npc ≤ 0xFFF ∧ s.finish s' npc res = { s' with pc := BitVec.ofNat 16 npc, result := some res }) ∨
      (0xFFF < npc ∧ s.finish s' npc res = s.enterFault (.pcOutOfRange npc)) := by
  rcases Nat.lt_or_ge 0xFFF npc with h | h
  · exact .inr ⟨h, State.finish_of_gt res h⟩
  · exact .inl ⟨h, State.finish_of_le res h⟩

/-! ## The end of a step -/

theorem State.endStep_of_faulted {s : State} {r : Fault} (h : s.mode = .faulted r) : s.endStep = s := by
  simp [State.endStep, h]

theorem State.endStep_of_not_faulted {s : State} (h : ∀ r, s.mode ≠ .faulted r) : s.endStep = s.tick := by
  unfold State.endStep
  split <;> simp_all

/-- The end of a step ticks, or leaves a faulted state as it is. -/
theorem State.endStep_cases (s : State) :
    (∃ r, s.mode = .faulted r ∧ s.endStep = s) ∨ ((∀ r, s.mode ≠ .faulted r) ∧ s.endStep = s.tick) := by
  cases h : s.mode with
  | faulted r => exact .inl ⟨r, rfl, State.endStep_of_faulted h⟩
  | running => exact .inr ⟨by simp, State.endStep_of_not_faulted (by simp [h])⟩
  | awaitingKey x prev => exact .inr ⟨by simp, State.endStep_of_not_faulted (by simp [h])⟩

theorem State.tick_of_due {s : State} (h : s.tickDue = true) :
    s.tick = { s with dt := timerDown s.dt, st := timerDown s.st, lastTick := s.now } := by
  simp [State.tick, h]

theorem State.tick_of_not_due {s : State} (h : s.tickDue = false) : s.tick = s := by
  simp [State.tick, h]

theorem State.tickDue_iff (s : State) :
    s.tickDue = true ↔ s.lastTick < s.now ∧ 1000000000 < 60 * (s.now - s.lastTick) := by
  simp [State.tickDue]

/-! ## Fetch -/

theorem hiByte_wordOfBytes (hi lo : Byte) : hiByte (wordOfBytes hi lo) = hi :=
  BitVec.extractLsb'_append_eq_left

theorem loByte_wordOfBytes (hi lo : Byte) : loByte (wordOfBytes hi lo) = lo :=
  BitVec.extractLsb'_append_eq_right

theorem wordOfBytes_hiByte_loByte (w : Half) : wordOfBytes (hiByte w) (loByte w) = w := by
  refine BitVec.eq_of_getLsbD_eq fun i hi => ?_
  simp only [wordOfBytes, hiByte, loByte, BitVec.getLsbD_append, BitVec.getLsbD_extractLsb']
  rcases Nat.lt_or_ge i 8 with h | h
  · simp [h]
  · have h' : i - 8 < 8 := by omega
    simp [Nat.not_lt.2 h, h', Nat.add_sub_cancel' h]

/-- Fetch depends on the pc, the memory and `FONT` alone. -/
theorem State.fetch_congr {s t : State} (hp : t.pc = s.pc) (hm : t.mem = s.mem) (hf : t.font = s.font) :
    t.fetch = s.fetch := by
  simp [State.fetch, hp, State.byte_congr hm hf]

theorem State.fetchAddress_le (s : State) : s.fetchAddress ≤ 0xFFE := by
  unfold State.fetchAddress
  split_ifs <;> omega

/-- The placed word is the one the next step fetches. -/
theorem State.fetch_placeWord (s : State) (w : Half) (h : s.mem.wf s.font = true) :
    (s.placeWord w).fetch = some w := by
  have hle := s.fetchAddress_le
  have hpc : (s.placeWord w).pc.toNat = s.fetchAddress := by
    simp [State.placeWord, Nat.mod_eq_of_lt (show s.fetchAddress < 65536 by omega)]
  have hb : ∀ k (hk : k < 2), (s.placeWord w).byte (s.fetchAddress + k) = [hiByte w, loByte w][k] := fun k hk =>
    State.byte_storeBytes_inside [hiByte w, loByte w]
      { s with mode := .running, pc := BitVec.ofNat 16 s.fetchAddress } s.fetchAddress k hk h
  have h0 := hb 0 (by omega)
  have h1 := hb 1 (by omega)
  rw [State.fetch, if_neg (by omega), hpc]
  simp only [Nat.add_zero, List.getElem_cons_zero, List.getElem_cons_succ] at h0 h1
  rw [h0, h1, wordOfBytes_hiByte_loByte]

/-! ## The key wait -/

theorem mem_pressEdges {prev keys : Keys} {k : KeyIdx} :
    k ∈ pressEdges prev keys ↔ prev[k.val] = false ∧ keys[k.val] = true := by
  simp [pressEdges]

theorem chooseKey_mem (pick : Nat) (k : KeyIdx) (ks : List KeyIdx) : chooseKey pick k ks ∈ k :: ks :=
  List.getElem_mem _

/-- What a wait step can do: keep waiting when there is no edge; report a key with an edge; or fault at 0xFFE. -/
theorem State.waitStep_cases (s : State) (x : Reg) (prev : Keys) :
    (pressEdges prev s.keys = [] ∧
        s.waitStep x prev = { s with mode := .awaitingKey x s.keys, result := some .ok }) ∨
      (s.pc.toNat + 2 ≤ 0xFFF ∧ ∃ k ∈ pressEdges prev s.keys,
        s.waitStep x prev = { s.setV x (BitVec.ofNat 8 k.val) with
          mode := .running, pc := BitVec.ofNat 16 (s.pc.toNat + 2), result := some .ok }) ∨
      (0xFFF < s.pc.toNat + 2 ∧ pressEdges prev s.keys ≠ [] ∧
        s.waitStep x prev = s.enterFault (.pcOutOfRange (s.pc.toNat + 2))) := by
  unfold State.waitStep
  cases h : pressEdges prev s.keys with
  | nil => exact .inl ⟨rfl, rfl⟩
  | cons k ks =>
    right
    rcases State.finish_cases s
        { s.setV x (BitVec.ofNat 8 (chooseKey s.keyPick k ks).val) with mode := .running } (s.pc.toNat + 2) .ok
      with ⟨hp, he⟩ | ⟨hp, he⟩
    · exact .inl ⟨hp, chooseKey s.keyPick k ks, chooseKey_mem _ _ _, he⟩
    · exact .inr ⟨hp, by simp, he⟩

end Sys2Proof.Machine
end

