-- ==== Sys2Proof/Laws/Display.lean ====
section
/-! SUPPORT. The laws of the framebuffer and of one column of a blit. -/

namespace Sys2Proof.Machine

theorem Display.pixel_xorPixel (d : Display) (x px : Fin 64) (y py : Fin 32) (b : Bool) :
    (d.xorPixel x y b).pixel px py = (d.pixel px py ^^ (b && decide (px = x ∧ py = y))) := by
  by_cases hx : x.val = px.val
  · by_cases hy : y.val = py.val
    · obtain rfl : x = px := Fin.ext hx
      obtain rfl : y = py := Fin.ext hy
      simp [Display.xorPixel, Display.pixel]
    · have hy' : ¬ py = y := fun h => hy (by simp [h])
      obtain rfl : x = px := Fin.ext hx
      simp [Display.xorPixel, Display.pixel, hy, hy']
  · have hx' : ¬ px = x := fun h => hx (by simp [h])
    simp [Display.xorPixel, Display.pixel, hx, hx']

/-- Two framebuffers with the same pixels are equal. -/
theorem Display.ext_pixel {d e : Display} (h : ∀ x y, d.pixel x y = e.pixel x y) : d = e := by
  refine Vector.ext fun i hi => Vector.ext fun j hj => ?_
  exact h ⟨i, hi⟩ ⟨j, hj⟩

theorem Display.pixel_clear (x : Fin 64) (y : Fin 32) : Display.clear.pixel x y = false := by
  simp [Display.clear, Display.pixel]

/-- One column of a blit: the pixel it lands on, and whether it erased. -/
theorem blitColumn_fst_pixel (row : Byte) (x0 y c : Nat) (acc : BlitAcc) (px : Fin 64) (py : Fin 32) :
    (blitColumn row x0 y acc c).1.pixel px py =
      (acc.1.pixel px py ^^
        (row.getLsbD (7 - c) && decide (px = Fin.ofNat 64 (x0 + c) ∧ py = Fin.ofNat 32 y))) :=
  Display.pixel_xorPixel _ _ _ _ _ _

end Sys2Proof.Machine
end

