-- ==== Sys2Proof/Laws/Encoding.lean ====
section
/-! SUPPORT. The fields of a word built in each format (30_encoding.md R103, R104). -/

namespace Sys2Proof

theorem nibble1_formatA (op : BitVec 4) (nnn : Addr12) : nibble1 (formatA op nnn) = op :=
  BitVec.extractLsb'_append_eq_left

theorem fieldNNN_formatA (op : BitVec 4) (nnn : Addr12) : fieldNNN (formatA op nnn) = nnn :=
  BitVec.extractLsb'_append_eq_right

theorem nibble1_formatXK (op : BitVec 4) (x : Reg) (nn : Byte) : nibble1 (formatXK op x nn) = op :=
  BitVec.extractLsb'_append_eq_left

theorem nibble1_formatXYF (op : BitVec 4) (x y : Reg) (f : BitVec 4) : nibble1 (formatXYF op x y f) = op :=
  BitVec.extractLsb'_append_eq_left

/-- A field of the low part of an appended word. -/
theorem extractLsb'_append_low {n m start len : Nat} (hi : BitVec n) (lo : BitVec m) (h : start + len ≤ m) :
    (hi ++ lo).extractLsb' start len = lo.extractLsb' start len := by
  refine BitVec.eq_of_getLsbD_eq fun i hi' => ?_
  simp only [BitVec.getLsbD_extractLsb', BitVec.getLsbD_append]
  simp [hi', show start + i < m by omega]

theorem fieldX_formatXK (op : BitVec 4) (x : Reg) (nn : Byte) : fieldX (formatXK op x nn) = x := by
  have h : nibble2 (formatXK op x nn) = BitVec.ofFin x :=
    (extractLsb'_append_low op _ (by omega)).trans BitVec.extractLsb'_append_eq_left
  simp [fieldX, h]

theorem fieldNN_formatXK (op : BitVec 4) (x : Reg) (nn : Byte) : fieldNN (formatXK op x nn) = nn :=
  (extractLsb'_append_low op _ (by omega)).trans BitVec.extractLsb'_append_eq_right

theorem fieldX_formatXYF (op : BitVec 4) (x y : Reg) (f : BitVec 4) : fieldX (formatXYF op x y f) = x := by
  have h : nibble2 (formatXYF op x y f) = BitVec.ofFin x :=
    (extractLsb'_append_low op _ (by omega)).trans BitVec.extractLsb'_append_eq_left
  simp [fieldX, h]

theorem fieldY_formatXYF (op : BitVec 4) (x y : Reg) (f : BitVec 4) : fieldY (formatXYF op x y f) = y := by
  have h : nibble3 (formatXYF op x y f) = BitVec.ofFin y :=
    ((extractLsb'_append_low op _ (by omega)).trans (extractLsb'_append_low _ _ (by omega))).trans
      BitVec.extractLsb'_append_eq_left
  simp [fieldY, h]

theorem nibble4_formatXYF (op : BitVec 4) (x y : Reg) (f : BitVec 4) : nibble4 (formatXYF op x y f) = f :=
  ((extractLsb'_append_low op _ (by omega)).trans (extractLsb'_append_low _ _ (by omega))).trans
    BitVec.extractLsb'_append_eq_right

theorem fieldN_formatXYF (op : BitVec 4) (x y : Reg) (f : BitVec 4) :
    fieldN (formatXYF op x y f) = f.toNat := by
  simp [fieldN, nibble4_formatXYF]

/-! ## Fields as numbers -/

theorem nibble1_toNat (w : Half) : (nibble1 w).toNat = w.toNat / 4096 := by
  have := w.isLt
  simp only [nibble1, BitVec.extractLsb'_toNat, Nat.shiftRight_eq_div_pow]
  omega

theorem nibble2_toNat (w : Half) : (nibble2 w).toNat = w.toNat / 256 % 16 := by
  simp only [nibble2, BitVec.extractLsb'_toNat, Nat.shiftRight_eq_div_pow, Nat.reducePow]

theorem nibble3_toNat (w : Half) : (nibble3 w).toNat = w.toNat / 16 % 16 := by
  simp only [nibble3, BitVec.extractLsb'_toNat, Nat.shiftRight_eq_div_pow, Nat.reducePow]

theorem nibble4_toNat (w : Half) : (nibble4 w).toNat = w.toNat % 16 := by
  simp only [nibble4, BitVec.extractLsb'_toNat, Nat.shiftRight_zero, Nat.reducePow]

theorem fieldNN_toNat (w : Half) : (fieldNN w).toNat = w.toNat % 256 := by
  simp only [fieldNN, BitVec.extractLsb'_toNat, Nat.shiftRight_zero, Nat.reducePow]

theorem fieldNNN_toNat (w : Half) : (fieldNNN w).toNat = w.toNat % 4096 := by
  simp only [fieldNNN, BitVec.extractLsb'_toNat, Nat.shiftRight_zero, Nat.reducePow]

end Sys2Proof
end

