-- ==== Sys2Proof/Laws/Exec.lean ====
section
/-! SUPPORT. What one instruction can do: fault out of the state it began in, or end with a next pc. -/

namespace Sys2Proof.Machine

theorem complete_eq (s s' : State) (c : NextPc) :
    s.complete s' c = .next (s.finish s' (c.target s.pc.toNat) .ok) := rfl

/-- The state an instruction wrote before its pc: what a meaning hands to `State.complete` keeps the parameters, the
ports, the keypad, the tick reference and the host's bookkeeping. -/
structure Writes (s s' : State) : Prop where
  keys : s'.keys = s.keys
  lastTick : s'.lastTick = s.lastTick
  font : s'.font = s.font
  drawZeroHeight : s'.drawZeroHeight = s.drawZeroHeight
  now : s'.now = s.now
  rnd : s'.rnd = s.rnd
  keyPick : s'.keyPick = s.keyPick
  schedule : s'.schedule = s.schedule
  stepNo : s'.stepNo = s.stepNo
  loaded : s'.loaded = s.loaded
  index : s.I.toNat ≤ 0xFFF → s'.I.toNat ≤ 0xFFF
  canonical : s.mem.wf s.font = true → s'.mem.wf s.font = true
  cells : ∀ c ∈ s'.mem, c ∈ s.mem ∨ (0x04F < c.1 ∧ c.1 ≤ 0xFFF)

/-- Registers, stack, timers and display may change at will. -/
theorem Writes.plain {s : State} (V : Vector Byte 16) (stack : Vector Half 16) (sp : Fin 17) (dt st : Byte)
    (disp : Display) : Writes s { s with V := V, stack := stack, sp := sp, dt := dt, st := st, disp := disp } where
  keys := rfl
  lastTick := rfl
  font := rfl
  drawZeroHeight := rfl
  now := rfl
  rnd := rfl
  keyPick := rfl
  schedule := rfl
  stepNo := rfl
  loaded := rfl
  index := id
  canonical := id
  cells := fun _ h => .inl h

theorem Writes.setIndex {s : State} (I : Half) (h : s.I.toNat ≤ 0xFFF → I.toNat ≤ 0xFFF) :
    Writes s { s with I := I } :=
  { Writes.plain s.V s.stack s.sp s.dt s.st s.disp (s := s) with index := h }

theorem Writes.store {s : State} (a : Nat) (bs : List Byte) (h : bs.length = 0 ∨ (0x04F < a ∧ a + bs.length ≤ 0x1000)) :
    Writes s (s.storeBytes a bs) where
  keys := by simp
  lastTick := by simp
  font := by simp
  drawZeroHeight := by simp
  now := by simp
  rnd := by simp
  keyPick := by simp
  schedule := by simp
  stepNo := by simp
  loaded := by simp
  index := by simp
  canonical := State.wf_storeBytes bs s a
  cells := fun c hc => (State.mem_storeBytes bs s a hc).imp_right fun _ => by omega

theorem Writes.await {s : State} (x : Reg) : Writes s { s with mode := .awaitingKey x s.keys } :=
  { Writes.plain s.V s.stack s.sp s.dt s.st s.disp (s := s) with keys := rfl }

theorem absolute_toNat_le (nnn : Addr12) : (absolute nnn).toNat ≤ 0xFFF := by
  have := nnn.isLt
  simp only [absolute, BitVec.toNat_setWidth]
  omega

theorem glyphAddress_toNat (v : Byte) : (glyphAddress v).toNat = v.toNat * 5 := by
  have := v.isLt
  simp only [glyphAddress, BitVec.toNat_ofNat]
  omega

/-- What an instruction can do: it answers a next state, either a fault taken out of `s` or `s.finish` of what it
wrote; only FX0A changes the mode, and it stays at the pc. -/
theorem exec_cases (i : Instr) (s : State) :
    (∃ r, exec i s = .next (s.enterFault r)) ∨
      (∃ s' c, exec i s = .next (s.finish s' (NextPc.target s.pc.toNat c) .ok) ∧ Writes s s' ∧
        (s'.mode = s.mode ∨ ∃ x, i = .ldVxK x ∧ c = .stay ∧ s'.mode = .awaitingKey x s.keys ∧ s'.mem = s.mem)) := by
  have plain : ∀ (V : Vector Byte 16) (c : NextPc),
      ∃ s' c', (s.complete { s with V := V } c) = .next (s.finish s' (NextPc.target s.pc.toNat c') .ok) ∧ Writes s s' ∧
        (s'.mode = s.mode ∨ ∃ x, i = .ldVxK x ∧ c' = .stay ∧ s'.mode = .awaitingKey x s.keys ∧ s'.mem = s.mem) :=
    fun V c => ⟨_, _, rfl, Writes.plain V s.stack s.sp s.dt s.st s.disp, .inl rfl⟩
  cases i with
  | ldVxNn x nn => exact .inr (plain _ _)
  | addVxNn x nn => exact .inr (plain _ _)
  | ldVxVy x y => exact .inr (plain _ _)
  | orVxVy x y => exact .inr (plain _ _)
  | andVxVy x y => exact .inr (plain _ _)
  | xorVxVy x y => exact .inr (plain _ _)
  | addVxVy x y => exact .inr (plain _ _)
  | subVxVy x y => exact .inr (plain _ _)
  | shrVx x y => exact .inr (plain _ _)
  | subnVxVy x y => exact .inr (plain _ _)
  | shlVx x y => exact .inr (plain _ _)
  | rndVxNn x nn => exact .inr (plain _ _)
  | ldVxDt x => exact .inr (plain _ _)
  | jp nnn => exact .inr (plain s.V _)
  | seVxNn x nn => exact .inr (plain s.V _)
  | sneVxNn x nn => exact .inr (plain s.V _)
  | seVxVy x y => exact .inr (plain s.V _)
  | sneVxVy x y => exact .inr (plain s.V _)
  | jpV0 nnn => exact .inr (plain s.V _)
  | ldDtVx x => exact .inr ⟨_, _, rfl, Writes.plain s.V s.stack s.sp (s.v x) s.st s.disp, .inl rfl⟩
  | ldStVx x => exact .inr ⟨_, _, rfl, Writes.plain s.V s.stack s.sp s.dt (s.v x) s.disp, .inl rfl⟩
  | cls => exact .inr ⟨_, _, rfl, Writes.plain s.V s.stack s.sp s.dt s.st Display.clear, .inl rfl⟩
  | ret =>
    rcases Nat.eq_zero_or_pos s.sp.val with h | h
    · exact .inl ⟨.stackUnderflow, by simp [exec, execRet, State.pop_eq_none h, State.raise]⟩
    · refine .inr ⟨_, .transfer (s.stack[s.sp.val - 1]).toNat, ?_, Writes.plain s.V s.stack ⟨s.sp.val - 1, by omega⟩ s.dt s.st s.disp, .inl rfl⟩
      simp [exec, execRet, State.pop_eq_some (Nat.pos_iff_ne_zero.1 h), complete_eq]
  | call nnn =>
    rcases Nat.lt_or_ge s.sp.val 16 with h | h
    · refine .inr ⟨_, .transfer (absolute nnn).toNat, ?_, Writes.plain s.V (s.stack.set s.sp.val (s.pc + 2)) ⟨s.sp.val + 1, by omega⟩ s.dt s.st s.disp, .inl rfl⟩
      simp [exec, execCall, State.push_eq_some _ h, complete_eq]
    · exact .inl ⟨.stackOverflow, by simp [exec, execCall, State.push_eq_none _ (show s.sp.val = 16 by omega), State.raise]⟩
  | ldINnn nnn => exact .inr ⟨_, _, rfl, Writes.setIndex _ fun _ => absolute_toNat_le nnn, .inl rfl⟩
  | ldFVx x =>
    refine .inr ⟨_, _, rfl, Writes.setIndex _ fun _ => ?_, .inl rfl⟩
    have := (s.v x).isLt
    rw [glyphAddress_toNat]
    omega
  | addIVx x =>
    rcases Nat.lt_or_ge 0xFFF (s.indexPlus x) with h | h
    · exact .inl ⟨.indexOutOfRange (s.indexPlus x), by simp [exec, execAddIVx, h, State.raise]⟩
    · refine .inr ⟨{ s with I := BitVec.ofNat 16 (s.indexPlus x) }, .advance, by simp [exec, execAddIVx, Nat.not_lt.2 h, complete_eq], Writes.setIndex _ fun _ => ?_, .inl rfl⟩
      simp only [BitVec.toNat_ofNat]
      omega
  | drw x y n =>
    by_cases hn : n = 0
    · subst hn
      cases hz : s.drawZeroHeight with
      | fault => exact .inl ⟨.spriteHeightZero, by simp [exec, execDrw, hz, State.raise]⟩
      | empty =>
        obtain ⟨s', c, h⟩ := plain (s.V.set 15 0) .advance
        exact .inr ⟨s', c, by rw [← h.1]; simp [exec, execDrw, hz, State.setVF, State.setV], h.2⟩
    · cases hr : rangeFault readFault s.indexBase n with
      | some r => exact .inl ⟨r, by simp [exec, execDrw, hn, hr, State.raise]⟩
      | none =>
        exact .inr ⟨s.draw x y n, .advance, by simp [exec, execDrw, hn, hr, complete_eq],
          Writes.plain (s.draw x y n).V s.stack s.sp s.dt s.st (s.draw x y n).disp, .inl rfl⟩
  | skp x =>
    cases hk : keyIndex (s.v x) with
    | none => exact .inl ⟨.keyIndexOutOfRange (s.v x), by simp [exec, execSkp, hk, State.raise]⟩
    | some k =>
      obtain ⟨s', c, h⟩ := plain s.V (skipIf s.keys[k.val])
      exact .inr ⟨s', c, by rw [← h.1]; simp [exec, execSkp, hk], h.2⟩
  | sknp x =>
    cases hk : keyIndex (s.v x) with
    | none => exact .inl ⟨.keyIndexOutOfRange (s.v x), by simp [exec, execSknp, hk, State.raise]⟩
    | some k =>
      obtain ⟨s', c, h⟩ := plain s.V (skipIf (!s.keys[k.val]))
      exact .inr ⟨s', c, by rw [← h.1]; simp [exec, execSknp, hk], h.2⟩
  | ldVxK x => exact .inr ⟨_, _, rfl, Writes.await x, .inr ⟨x, rfl, rfl, rfl, rfl⟩⟩
  | ldBVx x =>
    cases hr : rangeFault writeFault s.indexBase 3 with
    | some r => exact .inl ⟨r, by simp [exec, execLdBVx, hr, State.raise]⟩
    | none =>
      refine .inr ⟨s.storeBytes s.indexBase (decimalDigits (s.v x)), .advance, by simp [exec, execLdBVx, hr, complete_eq], Writes.store _ _ (.inr ?_), .inl (by simp)⟩
      simpa [decimalDigits] using rangeFault_write_eq_none.1 hr
  | ldMiVx x =>
    cases hr : rangeFault writeFault s.indexBase (x.val + 1) with
    | some r => exact .inl ⟨r, by simp [exec, execLdMiVx, hr, State.raise]⟩
    | none =>
      refine .inr ⟨s.storeBytes s.indexBase (s.regsTo x), .advance, by simp [exec, execLdMiVx, hr, complete_eq], Writes.store _ _ (.inr ?_), .inl (by simp)⟩
      simpa [State.regsTo_length] using rangeFault_write_eq_none.1 hr
  | ldVxMi x =>
    cases hr : rangeFault readFault s.indexBase (x.val + 1) with
    | some r => exact .inl ⟨r, by simp [exec, execLdVxMi, hr, State.raise]⟩
    | none =>
      obtain ⟨s', c, h⟩ := plain (s.loadRegs x s.indexBase).V .advance
      exact .inr ⟨s', c, by rw [← h.1]; simp [exec, execLdVxMi, hr]; rfl, h.2⟩

end Sys2Proof.Machine
end

