-- ==== Sys2Proof/Laws/PerInstr.lean ====
section
/-! SUPPORT. The family RoundTrip: decoding the word of a well-formed instruction gives the instruction back
(30_encoding.md R106, R107), one lemma per constructor. -/

namespace Sys2Proof.Laws.RoundTrip

/-- Decode of encode is the instruction, with every operand at every value the encoding admits. -/
def Statement (i : Instr) : Prop := i.wellFormed = true → decodeWord (encode i) = some i

theorem cls : Statement (.cls) := fun _ => by decide

theorem ret : Statement (.ret) := fun _ => by decide

theorem jp (nnn : Addr12) : Statement (.jp nnn) := fun _ => by
  simp [encode, decodeWord, nibble1_formatA, fieldNNN_formatA]

theorem call (nnn : Addr12) : Statement (.call nnn) := fun _ => by
  simp [encode, decodeWord, nibble1_formatA, fieldNNN_formatA]

theorem seVxNn (x : Reg) (nn : Byte) : Statement (.seVxNn x nn) := fun _ => by
  simp [encode, decodeWord, nibble1_formatXK, fieldX_formatXK, fieldNN_formatXK]

theorem sneVxNn (x : Reg) (nn : Byte) : Statement (.sneVxNn x nn) := fun _ => by
  simp [encode, decodeWord, nibble1_formatXK, fieldX_formatXK, fieldNN_formatXK]

theorem seVxVy (x y : Reg) : Statement (.seVxVy x y) := fun _ => by
  simp [encode, decodeWord, nibble1_formatXYF, nibble4_formatXYF, fieldX_formatXYF, fieldY_formatXYF]

theorem ldVxNn (x : Reg) (nn : Byte) : Statement (.ldVxNn x nn) := fun _ => by
  simp [encode, decodeWord, nibble1_formatXK, fieldX_formatXK, fieldNN_formatXK]

theorem addVxNn (x : Reg) (nn : Byte) : Statement (.addVxNn x nn) := fun _ => by
  simp [encode, decodeWord, nibble1_formatXK, fieldX_formatXK, fieldNN_formatXK]

theorem ldVxVy (x y : Reg) : Statement (.ldVxVy x y) := fun _ => by
  simp [encode, decodeWord, decode8, nibble1_formatXYF, nibble4_formatXYF, fieldX_formatXYF, fieldY_formatXYF]

theorem orVxVy (x y : Reg) : Statement (.orVxVy x y) := fun _ => by
  simp [encode, decodeWord, decode8, nibble1_formatXYF, nibble4_formatXYF, fieldX_formatXYF, fieldY_formatXYF]

theorem andVxVy (x y : Reg) : Statement (.andVxVy x y) := fun _ => by
  simp [encode, decodeWord, decode8, nibble1_formatXYF, nibble4_formatXYF, fieldX_formatXYF, fieldY_formatXYF]

theorem xorVxVy (x y : Reg) : Statement (.xorVxVy x y) := fun _ => by
  simp [encode, decodeWord, decode8, nibble1_formatXYF, nibble4_formatXYF, fieldX_formatXYF, fieldY_formatXYF]

theorem addVxVy (x y : Reg) : Statement (.addVxVy x y) := fun _ => by
  simp [encode, decodeWord, decode8, nibble1_formatXYF, nibble4_formatXYF, fieldX_formatXYF, fieldY_formatXYF]

theorem subVxVy (x y : Reg) : Statement (.subVxVy x y) := fun _ => by
  simp [encode, decodeWord, decode8, nibble1_formatXYF, nibble4_formatXYF, fieldX_formatXYF, fieldY_formatXYF]

theorem shrVx (x y : Reg) : Statement (.shrVx x y) := fun _ => by
  simp [encode, decodeWord, decode8, nibble1_formatXYF, nibble4_formatXYF, fieldX_formatXYF, fieldY_formatXYF]

theorem subnVxVy (x y : Reg) : Statement (.subnVxVy x y) := fun _ => by
  simp [encode, decodeWord, decode8, nibble1_formatXYF, nibble4_formatXYF, fieldX_formatXYF, fieldY_formatXYF]

theorem shlVx (x y : Reg) : Statement (.shlVx x y) := fun _ => by
  simp [encode, decodeWord, decode8, nibble1_formatXYF, nibble4_formatXYF, fieldX_formatXYF, fieldY_formatXYF]

theorem sneVxVy (x y : Reg) : Statement (.sneVxVy x y) := fun _ => by
  simp [encode, decodeWord, nibble1_formatXYF, nibble4_formatXYF, fieldX_formatXYF, fieldY_formatXYF]

theorem ldINnn (nnn : Addr12) : Statement (.ldINnn nnn) := fun _ => by
  simp [encode, decodeWord, nibble1_formatA, fieldNNN_formatA]

theorem jpV0 (nnn : Addr12) : Statement (.jpV0 nnn) := fun _ => by
  simp [encode, decodeWord, nibble1_formatA, fieldNNN_formatA]

theorem rndVxNn (x : Reg) (nn : Byte) : Statement (.rndVxNn x nn) := fun _ => by
  simp [encode, decodeWord, nibble1_formatXK, fieldX_formatXK, fieldNN_formatXK]

theorem drw (x y : Reg) (n : Nat) : Statement (.drw x y n) := fun h => by
  have hn : n < 16 := by simpa [Instr.wellFormed] using h
  simp [encode, decodeWord, nibble1_formatXYF, fieldN_formatXYF, fieldX_formatXYF, fieldY_formatXYF, Nat.mod_eq_of_lt hn]

theorem skp (x : Reg) : Statement (.skp x) := fun _ => by
  simp [encode, decodeWord, decodeE, nibble1_formatXK, fieldX_formatXK, fieldNN_formatXK]

theorem sknp (x : Reg) : Statement (.sknp x) := fun _ => by
  simp [encode, decodeWord, decodeE, nibble1_formatXK, fieldX_formatXK, fieldNN_formatXK]

theorem ldVxDt (x : Reg) : Statement (.ldVxDt x) := fun _ => by
  simp [encode, decodeWord, decodeF, nibble1_formatXK, fieldX_formatXK, fieldNN_formatXK]

theorem ldVxK (x : Reg) : Statement (.ldVxK x) := fun _ => by
  simp [encode, decodeWord, decodeF, nibble1_formatXK, fieldX_formatXK, fieldNN_formatXK]

theorem ldDtVx (x : Reg) : Statement (.ldDtVx x) := fun _ => by
  simp [encode, decodeWord, decodeF, nibble1_formatXK, fieldX_formatXK, fieldNN_formatXK]

theorem ldStVx (x : Reg) : Statement (.ldStVx x) := fun _ => by
  simp [encode, decodeWord, decodeF, nibble1_formatXK, fieldX_formatXK, fieldNN_formatXK]

theorem addIVx (x : Reg) : Statement (.addIVx x) := fun _ => by
  simp [encode, decodeWord, decodeF, nibble1_formatXK, fieldX_formatXK, fieldNN_formatXK]

theorem ldFVx (x : Reg) : Statement (.ldFVx x) := fun _ => by
  simp [encode, decodeWord, decodeF, nibble1_formatXK, fieldX_formatXK, fieldNN_formatXK]

theorem ldBVx (x : Reg) : Statement (.ldBVx x) := fun _ => by
  simp [encode, decodeWord, decodeF, nibble1_formatXK, fieldX_formatXK, fieldNN_formatXK]

theorem ldMiVx (x : Reg) : Statement (.ldMiVx x) := fun _ => by
  simp [encode, decodeWord, decodeF, nibble1_formatXK, fieldX_formatXK, fieldNN_formatXK]

theorem ldVxMi (x : Reg) : Statement (.ldVxMi x) := fun _ => by
  simp [encode, decodeWord, decodeF, nibble1_formatXK, fieldX_formatXK, fieldNN_formatXK]

end Sys2Proof.Laws.RoundTrip
end

