-- ==== Sys2Proof/Tests/Slice0.lean ====
section
/-! SUPPORT. The model's own tests: the worked examples and vectors of 95_test_vectors.md, words written out from
30_encoding.md R104 and R106, and for each statement with hypotheses a state that meets them. -/

namespace Sys2Proof.Tests

open Sys2Proof Sys2Proof.Machine Sys2Proof.Claims

-- One test after the other: many kernel evaluations at once would each wait in a thread of its own.
set_option Elab.async false

/-! ## Helpers -/

/-- The font bytes of 93_implementation_defined.md G1. PRESUMED: general knowledge, for tests only. -/
def fontLow : Vector Byte 40 :=
  #v[0xF0, 0x90, 0x90, 0x90, 0xF0, 0x20, 0x60, 0x20, 0x20, 0x70, 0xF0, 0x10, 0xF0, 0x80, 0xF0, 0xF0, 0x10, 0xF0, 0x10,
     0xF0, 0x90, 0x90, 0xF0, 0x10, 0x10, 0xF0, 0x80, 0xF0, 0x10, 0xF0, 0xF0, 0x80, 0xF0, 0x90, 0xF0, 0xF0, 0x10, 0x20,
     0x40, 0x40]

/-- The other half of `fontLow`. -/
def fontHigh : Vector Byte 40 :=
  #v[0xF0, 0x90, 0xF0, 0x90, 0xF0, 0xF0, 0x90, 0xF0, 0x10, 0xF0, 0xF0, 0x90, 0xF0, 0x90, 0x90, 0xE0, 0x90, 0xE0, 0x90,
     0xE0, 0xF0, 0x80, 0x80, 0x80, 0xF0, 0xE0, 0x90, 0x90, 0x90, 0xE0, 0xF0, 0x80, 0xF0, 0x80, 0xF0, 0xF0, 0x80, 0xF0,
     0x80, 0x80]

def testFont : Font := fontLow ++ fontHigh

/-- A host that writes no key. -/
def quiet : HostTurn where
  keyWrites := []
  now := 0
  rnd := 0
  keyPick := 0

/-- The start state of 95_test_vectors.md: reset with t0 = 0, and now = 0, rnd = 0 at the pins. -/
def start : State :=
  { State.resetPort 0 testFont .fault with now := 0, rnd := 0, keyPick := 0, schedule := [quiet, quiet] }

/-- `start` with registers given. -/
def withRegs (l : List (Reg × Byte)) : State := l.foldl (fun s p => s.setV p.1 p.2) start

def atPc (p : Half) : State := { start with pc := p }

def answersNext : Result → Bool
  | .next _ => true
  | .fault _ => false
  | .refused _ => false

def out : Result → State
  | .next t => t
  | .fault _ => start
  | .refused _ => start

theorem eq_next_out : ∀ {r : Result}, answersNext r = true → r = .next (out r)
  | .next _, _ => rfl

/-- The state after one step that runs the word `w` at the pc of `s`. -/
def run (w : Half) (s : State) : State := out (step (s.placeWord w))

def pixelsOn (d : Display) (ps : List (Fin 64 × Fin 32)) : Bool := ps.all fun p => d.pixel p.1 p.2

def countOn (d : Display) : Nat := (d.toList.map fun col => col.toList.countP id).sum

/-! ## Decoding (30_encoding.md R103 to R110, and ENC-1 to ENC-6) -/

theorem test_decode_control :
    decodeWord 0b0000000011100000 = some .cls ∧ decodeWord 0b0000000011101110 = some .ret ∧
    decodeWord 0b0001001000000100 = some (.jp 0x204) ∧ decodeWord 0b0010101010111100 = some (.call 0xABC) ∧
    decodeWord 0b0011000100000000 = some (.seVxNn 1 0x00) ∧ decodeWord 0b0100001000000101 = some (.sneVxNn 2 0x05) ∧
    decodeWord 0b0101001101000000 = some (.seVxVy 3 4) ∧ decodeWord 0b1001001101000000 = some (.sneVxVy 3 4) ∧
    decodeWord 0b1011010100000000 = some (.jpV0 0x500) := by decide

theorem test_decode_alu :
    decodeWord 0b0110101001000010 = some (.ldVxNn 0xA 0x42) ∧ decodeWord 0b0111000000000010 = some (.addVxNn 0 0x02) ∧
    decodeWord 0b1000000100100000 = some (.ldVxVy 1 2) ∧ decodeWord 0b1000000100100001 = some (.orVxVy 1 2) ∧
    decodeWord 0b1000000100100010 = some (.andVxVy 1 2) ∧ decodeWord 0b1000000100100011 = some (.xorVxVy 1 2) ∧
    decodeWord 0b1000000000010100 = some (.addVxVy 0 1) ∧ decodeWord 0b1000000000010101 = some (.subVxVy 0 1) ∧
    decodeWord 0b1000101010110110 = some (.shrVx 0xA 0xB) ∧ decodeWord 0b1000101000000110 = some (.shrVx 0xA 0) ∧
    decodeWord 0b1000000000010111 = some (.subnVxVy 0 1) ∧ decodeWord 0b1000001100001110 = some (.shlVx 3 0) ∧
    decodeWord 0b1100001100001111 = some (.rndVxNn 3 0x0F) := by decide

theorem test_decode_units :
    decodeWord 0b1010000100100011 = some (.ldINnn 0x123) ∧ decodeWord 0b1101000000010010 = some (.drw 0 1 2) ∧
    decodeWord 0b1101000000010000 = some (.drw 0 1 0) ∧ decodeWord 0b1110001010011110 = some (.skp 2) ∧
    decodeWord 0b1110001010100001 = some (.sknp 2) ∧ decodeWord 0b1111001100000111 = some (.ldVxDt 3) ∧
    decodeWord 0b1111001000001010 = some (.ldVxK 2) ∧ decodeWord 0b1111001100010101 = some (.ldDtVx 3) ∧
    decodeWord 0b1111001100011000 = some (.ldStVx 3) ∧ decodeWord 0b1111001000011110 = some (.addIVx 2) ∧
    decodeWord 0b1111000000101001 = some (.ldFVx 0) ∧ decodeWord 0b1111110000110011 = some (.ldBVx 0xC) ∧
    decodeWord 0b1111000101010101 = some (.ldMiVx 1) ∧ decodeWord 0b1111001001100101 = some (.ldVxMi 2) := by decide

/-- ENC-3, and a word of each part of the failure space of 30_encoding.md R108. -/
theorem test_decode_failures :
    ([0x0000, 0x00FF, 0x0123, 0x00E1, 0x5341, 0x9341, 0x8018, 0x801F, 0xE29F, 0xF000, 0xF0FF] : List Half).all
      (fun w => decodeWord w = none) = true := by decide

/-- ENC-1. -/
theorem test_fetch_is_big_endian :
    (start.storeBytes 0x200 [0x12, 0x34]).fetch = some 0x1234 ∧ fieldX 0x1234 = 2 ∧ fieldY 0x1234 = 3 ∧
    fieldN 0x1234 = 4 ∧ fieldNN 0x1234 = 0x34 ∧ fieldNNN 0x1234 = 0x234 := by decide +kernel

theorem test_decode_bytes :
    decodeBytes [0x6A, 0x42, 0x99] = .ok (.ldVxNn 0xA 0x42, [0x99]) ∧
    decodeBytes [0x00, 0xFF] = .error (.notInTable 0x00FF) ∧ decodeBytes [0x6A] = .error .truncated ∧
    decodeTableWord 16 0x6A42 = some (.ldVxNn 0xA 0x42) := by decide

/-- The one check of `Instr.wellFormed`: a row count that does not fit its field (30_encoding.md R103). -/
theorem test_wellFormed_refuses_a_wide_row_count :
    (Instr.drw 0 0 16).wellFormed = false ∧ (Instr.drw 0 0 15).wellFormed = true := by decide

/-! ## The step (STP-1 to STP-7) -/

theorem test_fetch_past_memory :
    (out (step (atPc 0xFFF))).mode = .faulted (.pcOutOfRange 0xFFF) ∧ (out (step (atPc 0xFFF))).pc = 0xFFF := by
  decide +kernel

theorem test_new_pc_checked_first :
    (run 0x6055 (atPc 0xFFE)).mode = .faulted (.pcOutOfRange 0x1000) ∧ (run 0x6055 (atPc 0xFFE)).v 0 = 0 := by
  decide +kernel

theorem test_decode_failure_ticks :
    (run 0x0000 { start with dt := 2, now := 20000000 }).result = some .decodeFailure ∧
    (run 0x0000 { start with dt := 2, now := 20000000 }).pc = 0x202 ∧
    (run 0x0000 { start with dt := 2, now := 20000000 }).dt = 1 := by decide +kernel

theorem test_fault_does_not_tick :
    (run 0x00EE { start with dt := 2, now := 20000000 }).mode = .faulted .stackUnderflow ∧
    (run 0x00EE { start with dt := 2, now := 20000000 }).dt = 2 := by decide +kernel

/-- TMR-4 and TMR-5. -/
theorem test_tick_threshold :
    (run 0x1200 { start with dt := 5, now := 16666666 }).dt = 5 ∧
    (run 0x1200 { start with dt := 5, now := 16666667 }).dt = 4 ∧
    (run 0x1200 { start with dt := 5, now := 16666667 }).lastTick = 16666667 := by decide +kernel

/-! ## Control flow (CF-1 to CF-24) -/

theorem test_ret :
    (run 0x00EE { atPc 0x212 with stack := start.stack.set 0 0x206, sp := 1 }).pc = 0x206 ∧
    (run 0x00EE { atPc 0x212 with stack := start.stack.set 0 0x206, sp := 1 }).sp = 0 := by decide +kernel

theorem test_call :
    (run 0x2ABC { atPc 0x300 with sp := 15 }).stack[15] = 0x302 ∧ (run 0x2ABC { atPc 0x300 with sp := 15 }).sp = 16 ∧
    (run 0x2ABC { atPc 0x300 with sp := 15 }).pc = 0xABC := by decide +kernel

theorem test_call_overflow : (run 0x2210 { start with sp := 16 }).mode = .faulted .stackOverflow := by decide +kernel

theorem test_jp : (run 0x1FFF start).pc = 0xFFF := by decide +kernel

theorem test_seVxNn : (run 0x3100 (atPc 0x208)).pc = 0x20C ∧ (run 0x3101 (atPc 0x208)).pc = 0x20A := by decide +kernel

theorem test_seVxNn_past_memory :
    (run 0x3100 (atPc 0xFFC)).mode = .faulted (.pcOutOfRange 0x1000) ∧ (run 0x3101 (atPc 0xFFC)).pc = 0xFFE := by
  decide +kernel

theorem test_sneVxNn :
    (run 0x4205 (withRegs [(2, 5)])).pc = 0x202 ∧ (run 0x4206 (withRegs [(2, 5)])).pc = 0x204 := by decide +kernel

theorem test_seVxVy :
    (run 0x5340 (withRegs [(3, 0x10), (4, 0x10)])).pc = 0x204 ∧ (run 0x5340 (withRegs [(3, 0x10)])).pc = 0x202 := by
  decide +kernel

theorem test_sneVxVy :
    (run 0x9340 (withRegs [(3, 0x10), (4, 0x11)])).pc = 0x204 ∧
    (run 0x9340 (withRegs [(3, 0x10), (4, 0x10)])).pc = 0x202 := by decide +kernel

theorem test_jpV0 :
    (run 0xBF00 (withRegs [(0, 0xFF)])).pc = 0xFFF ∧ (run 0xB500 (withRegs [(5, 0x10)])).pc = 0x500 := by decide +kernel

theorem test_jpV0_past_memory : (run 0xBFFF (withRegs [(0, 1)])).mode = .faulted (.pcOutOfRange 0x1000) := by
  decide +kernel

/-! ## Arithmetic and logic (ALU-1 to ALU-27) -/

theorem test_ldVxNn : (run 0x6F07 start).v 15 = 7 := by decide +kernel

theorem test_addVxNn :
    (run 0x7002 (withRegs [(0, 0xFF), (15, 0x55)])).v 0 = 1 ∧ (run 0x7002 (withRegs [(0, 0xFF), (15, 0x55)])).v 15 = 0x55 := by
  decide +kernel

theorem test_ldVxVy : (run 0x8120 (withRegs [(2, 0x33)])).v 1 = 0x33 := by decide +kernel

theorem test_orVxVy :
    (run 0x8121 (withRegs [(1, 0xF0), (2, 0x0F), (15, 1)])).v 1 = 0xFF ∧
    (run 0x8F11 (withRegs [(1, 0x0F), (15, 0xF0)])).v 15 = 0 := by decide +kernel

theorem test_andVxVy :
    (run 0x8122 (withRegs [(1, 0xF0), (2, 0x3C), (15, 1)])).v 1 = 0x30 ∧
    (run 0x8122 (withRegs [(1, 0xF0), (2, 0x3C), (15, 1)])).v 15 = 0 := by decide +kernel

theorem test_xorVxVy :
    (run 0x8123 (withRegs [(1, 0xFF), (2, 0x0F), (15, 1)])).v 1 = 0xF0 ∧
    (run 0x8123 (withRegs [(1, 0xFF), (2, 0x0F), (15, 1)])).v 15 = 0 := by decide +kernel

theorem test_addVxVy :
    (run 0x8014 (withRegs [(0, 0xFF), (1, 0xFF)])).v 0 = 0xFE ∧ (run 0x8F04 (withRegs [(15, 0xFF), (0, 1)])).v 15 = 1 := by
  decide +kernel

theorem test_subVxVy :
    (run 0x8015 (withRegs [(0, 1), (1, 2), (15, 1)])).v 0 = 0xFF ∧ (run 0x8015 (withRegs [(0, 1), (1, 2), (15, 1)])).v 15 = 0 ∧
    (run 0x80F5 (withRegs [(0, 0x10), (15, 1)])).v 0 = 0x0F := by decide +kernel

theorem test_subVxVy_equal_operands : (run 0x8015 (withRegs [(0, 7), (1, 7)])).v 15 = 1 := by decide +kernel

theorem test_shrVx :
    (run 0x83A6 (withRegs [(3, 4), (0xA, 0xFF)])).v 3 = 2 ∧ (run 0x8F06 (withRegs [(15, 3)])).v 15 = 1 := by decide +kernel

theorem test_subnVxVy :
    (run 0x8017 (withRegs [(0, 2), (1, 1)])).v 0 = 0xFF ∧ (run 0x8017 (withRegs [(0, 1), (1, 3)])).v 15 = 1 := by
  decide +kernel

theorem test_shlVx :
    (run 0x830E (withRegs [(3, 0x81)])).v 3 = 2 ∧ (run 0x830E (withRegs [(3, 0x81)])).v 15 = 1 := by decide +kernel

theorem test_rndVxNn : (run 0xC30F { start with rnd := 0xA7 }).v 3 = 7 := by decide +kernel

/-! ## Display (DSP-1 to DSP-14) -/

theorem test_cls : countOn (run 0x00E0 { start with disp := start.disp.xorPixel 63 31 true }).disp = 0 := by decide +kernel

/-- L1.7. -/
theorem test_drw_wraps_to_the_left :
    countOn (run 0xD011 { withRegs [(0, 0x3F)] with I := 0x300, mem := [(0x300, 0xFF)] }).disp = 8 ∧
    pixelsOn (run 0xD011 { withRegs [(0, 0x3F)] with I := 0x300, mem := [(0x300, 0xFF)] }).disp
      [(63, 0), (0, 0), (1, 0), (6, 0)] = true := by decide +kernel

/-- DSP-6 and DSP-3: the coordinate is the VF from before the step; a pixel turned off is a collision. -/
theorem test_drw_coordinate_and_collision :
    pixelsOn (run 0xDF01 { withRegs [(15, 5)] with I := 0x300, mem := [(0x300, 0x80)] }).disp [(5, 0)] = true ∧
    (run 0xD011 { start with I := 0x300, mem := [(0x300, 0x80)], disp := start.disp.xorPixel 0 0 true }).v 15 = 1 ∧
    countOn (run 0xD011 { start with I := 0x300, mem := [(0x300, 0x80)], disp := start.disp.xorPixel 0 0 true }).disp = 0 := by
  decide +kernel

/-! ## Index and memory (MEM-1 to MEM-25) -/

theorem test_ldINnn : (run 0xA123 start).I = 0x123 := by decide +kernel

theorem test_addIVx :
    (run 0xF21E { withRegs [(2, 0x0F)] with I := 0xFF0 }).I = 0xFFF ∧
    (run 0xF21E { withRegs [(2, 0x10)] with I := 0xFF0 }).mode = .faulted (.indexOutOfRange 0x1000) := by decide +kernel

theorem test_ldFVx : (run 0xF029 (withRegs [(0, 0xFF)])).I = 0x4FB := by decide +kernel

/-- L1.8. -/
theorem test_ldBVx :
    (run 0xFC33 { withRegs [(0xC, 0x9D)] with I := 0x300 }).bytesFrom 0x300 3 = [1, 5, 7] := by decide +kernel

theorem test_ldBVx_font : (run 0xF033 { withRegs [(0, 1)] with I := 0x04F }).mode = .faulted (.fontWrite 0x04F) := by
  decide +kernel

theorem test_ldMiVx :
    (run 0xF155 { withRegs [(0, 0x11), (1, 0x22), (2, 0x33)] with I := 0x400 }).bytesFrom 0x400 3 = [0x11, 0x22, 0] ∧
    (run 0xF155 { withRegs [(0, 0x11), (1, 0x22)] with I := 0x400 }).I = 0x400 := by decide +kernel

theorem test_ldMiVx_past_memory :
    (run 0xF255 { withRegs [(0, 9)] with I := 0xFFE }).mode = .faulted (.memOutOfRange 0x1000) ∧
    (run 0xF255 { withRegs [(0, 9)] with I := 0xFFE }).byte 0xFFE = 0 := by decide +kernel

theorem test_ldVxMi :
    (run 0xF465 start).regsTo 5 = [0xF0, 0x90, 0x90, 0x90, 0xF0, 0x00] ∧
    (run 0xF165 { start with I := 0xFFF }).mode = .faulted (.memOutOfRange 0x1000) := by decide +kernel

/-! ## Timers and keypad (TMR-1 to TMR-10, KEY-1 to KEY-14) -/

theorem test_ldVxDt_before_the_tick :
    (run 0xF107 { start with dt := 4, now := 20000000 }).v 1 = 4 ∧ (run 0xF107 { start with dt := 4, now := 20000000 }).dt = 3 := by
  decide +kernel

theorem test_ldDtVx_ticked_in_the_same_step : (run 0xF015 { withRegs [(0, 3)] with now := 20000000 }).dt = 2 := by
  decide +kernel

theorem test_ldStVx : (run 0xF318 (withRegs [(3, 1)])).st = 1 := by decide +kernel

theorem test_skp :
    (run 0xE29E ((withRegs [(2, 7)]).putKey 7 true)).pc = 0x204 ∧ (run 0xE29E (withRegs [(2, 7)])).pc = 0x202 ∧
    (run 0xE29E (withRegs [(2, 0x10)])).mode = .faulted (.keyIndexOutOfRange 0x10) := by decide +kernel

theorem test_sknp :
    (run 0xE2A1 (withRegs [(2, 7)])).pc = 0x204 ∧ (run 0xE2A1 ((withRegs [(2, 7)]).putKey 7 true)).pc = 0x202 := by
  decide +kernel

theorem test_ldVxK_entry :
    (run 0xF20A (start.putKey 3 true)).mode = .awaitingKey 2 (start.keys.set 3 true) ∧
    (run 0xF20A (start.putKey 3 true)).pc = 0x200 := by decide +kernel

/-- KEY-8 and KEY-12: a key held since the entry is no edge; a new one wakes. -/
theorem test_ldVxK_wake :
    (out (step { start.putKey 3 true with mode := .awaitingKey 2 (start.keys.set 3 true) })).pc = 0x200 ∧
    (out (step { start.putKey 0xC true with mode := .awaitingKey 15 start.keys })).v 15 = 0xC ∧
    (out (step { start.putKey 0xC true with mode := .awaitingKey 15 start.keys })).mode = .running := by decide +kernel

/-! ## Reset and the ports (RST-1 to RST-5, KEY-14, DSP-14) -/

theorem test_reset : start.pc = 0x200 ∧ start.bytesFrom 0x000 5 = [0xF0, 0x90, 0x90, 0x90, 0xF0] ∧ start.byte 0x050 = 0 := by
  decide +kernel

/-- RST-3, KEY-14, DSP-14. -/
theorem test_ports_refuse :
    answersNext (start.load (List.replicate 0xE01 0)) = false ∧ answersNext (start.setKey 0x10 true) = false ∧
    start.pixelAt 64 0 = .error (.pixelRefused 64 0) := by decide +kernel

theorem test_withFetchWord : (out (step (start.withFetchWord 16 0x6A42))).v 0xA = 0x42 := by decide +kernel

/-! ## Witnesses: for each statement with hypotheses, inputs that meet them, at the ends of their ranges -/

theorem answers_exec (i : Instr) (s : State) (h : answersNext (exec i s) = true) : exec i s = .next (out (exec i s)) :=
  eq_next_out h

/-- A state in the middle of a session: a program byte stored, a key wait at its FX0A. -/
def waiting : State :=
  { start with mem := [(0x200, 0xF2), (0x201, 0x0A)], mode := .awaitingKey 2 start.keys, stepNo := 1 }

/-- Key 3 pressed since the sample of the wait. -/
def waitingPressed : State := waiting.putKey 3 true

theorem witness_DecodeOfEncode :
    (Instr.drw 15 15 15).wellFormed = true ∧ (Instr.drw 0 0 0).wellFormed = true ∧ (Instr.jp 0xFFF).wellFormed = true := by
  decide

theorem witness_EncodeOfDecode :
    decodeWord 0xDFFF = some (.drw 15 15 15) ∧ decodeWord 0x00E0 = some .cls ∧ decodeWord 0xFF65 = some (.ldVxMi 15) := by
  decide

theorem witness_DecodeTestsMatchAndMask :
    (17, 0x8007, 0xF00F) ∈ opcodeTable ∧ (1, 0x00E0, 0xFFFF) ∈ opcodeTable ∧ (34, 0xF065, 0xF0FF) ∈ opcodeTable ∧
    (0x8FF7 : Half) &&& 0xF00F = 0x8007 ∧ (0x8FF8 : Half) &&& 0xF00F ≠ 0x8007 := by decide

theorem witness_FetchReadsBigEndianOrFaults :
    (atPc 0xFFE).pc.toNat ≤ 0xFFE ∧ (atPc 0xFFF).mode = .running ∧ 0xFFE < (atPc 0xFFF).pc.toNat := by decide +kernel

/-- LD V0, 42 at 0xFFC completes; 00EE at 0xFFE underflows. -/
def loads : State := { atPc 0xFFC with mem := [(0xFFC, 0x60), (0xFFD, 0x42)] }
def returns : State := { atPc 0xFFE with mem := [(0xFFF, 0xEE)] }

theorem witness_StepRunsTheDecodedInstruction :
    (loads.mode = .running ∧ loads.pc.toNat ≤ 0xFFE ∧
      (0x6042 : Half).toNat = 256 * (loads.byte loads.pc.toNat).toNat + (loads.byte (loads.pc.toNat + 1)).toNat ∧
      decodeWord 0x6042 = some (.ldVxNn 0 0x42) ∧ exec (.ldVxNn 0 0x42) loads = .next (out (exec (.ldVxNn 0 0x42) loads)) ∧
      (out (exec (.ldVxNn 0 0x42) loads)).mode = .running) ∧
    (returns.mode = .running ∧ returns.pc.toNat ≤ 0xFFE ∧
      (0x00EE : Half).toNat = 256 * (returns.byte returns.pc.toNat).toNat + (returns.byte (returns.pc.toNat + 1)).toNat ∧
      decodeWord 0x00EE = some .ret ∧ exec .ret returns = .next (out (exec .ret returns)) ∧
      (out (exec .ret returns)).mode = .faulted .stackUnderflow) := by
  refine ⟨⟨?_, ?_, ?_, ?_, answers_exec _ _ ?_, ?_⟩, ?_, ?_, ?_, ?_, answers_exec _ _ ?_, ?_⟩ <;> decide +kernel

theorem witness_DecodeFailureAdvancesAndTicks :
    ((atPc 0xFFD).mode = .running ∧ (atPc 0xFFD).pc.toNat ≤ 0xFFD ∧
      (0x0000 : Half).toNat = 256 * ((atPc 0xFFD).byte 0xFFD).toNat + ((atPc 0xFFD).byte 0xFFE).toNat) ∧
    ((atPc 0xFFE).pc.toNat = 0xFFE ∧
      (0x0000 : Half).toNat = 256 * ((atPc 0xFFE).byte 0xFFE).toNat + ((atPc 0xFFE).byte 0xFFF).toNat) ∧
    decodeWord 0x0000 = none := by decide +kernel

theorem witness_FaultedStepChangesNothing :
    { start with mode := .faulted .stackUnderflow }.mode = .faulted .stackUnderflow := rfl

theorem witness_EveryInstructionAnswers :
    start.mode = .running ∧ exec .ret start = .next (out (exec .ret start)) ∧
    (out (exec .ret start)).mode = .faulted .stackUnderflow :=
  ⟨rfl, answers_exec _ _ (by decide +kernel), by decide +kernel⟩

theorem witness_FaultsAreExactlyTheListedOnes :
    (ownFault { start with I := 0x04E } (.ldBVx 0) = some (.fontWrite 0x04E) ∧
      ownFault { start with I := 0xFFE } (.ldBVx 0) = some (.memOutOfRange 0x1000) ∧
      ownFault { start with I := 0xFF1 } (.ldVxMi 15) = some (.memOutOfRange 0x1000)) ∧
    (ownFault (atPc 0xFFC) (.seVxNn 0 0) = none ∧ 0xFFF < newPc (atPc 0xFFC) (.seVxNn 0 0)) ∧
    (ownFault (atPc 0xFFB) (.seVxNn 0 0) = none ∧ newPc (atPc 0xFFB) (.seVxNn 0 0) ≤ 0xFFF) := by decide +kernel

theorem witness_NextPcFollowsTheTable :
    start.mode = .running ∧ exec (.jp 0xFFF) start = .next (out (exec (.jp 0xFFF) start)) ∧
    ∀ r, (out (exec (.jp 0xFFF) start)).mode ≠ .faulted r := by
  refine ⟨rfl, answers_exec _ _ (by decide +kernel), fun r h => ?_⟩
  have : (out (exec (.jp 0xFFF) start)).mode = .running := by decide +kernel
  exact absurd (this.symm.trans h) (by simp)

theorem start_inv : start.Inv where
  pcInMemory := by decide +kernel
  indexInMemory := by decide +kernel
  canonical := by decide +kernel
  inPlace := by simp [cellsInPlace, start, State.resetPort]
  waiting := fun x prev h => by simp [start, State.resetPort] at h
  fresh := fun _ => rfl

theorem waiting_inv : waiting.Inv where
  pcInMemory := by decide +kernel
  indexInMemory := by decide +kernel
  canonical := by decide +kernel
  inPlace := by simp [cellsInPlace, waiting]
  waiting := fun x prev h => by
    have h' : Mode.awaitingKey 2 start.keys = .awaitingKey x prev := h
    obtain ⟨rfl, -⟩ := Mode.awaitingKey.inj h'
    decide +kernel
  fresh := fun h => by simp [waiting] at h

theorem witness_StepKeepsTheInvariant :
    (start.Inv ∧ step start = .next (out (step start))) ∧ waiting.Inv ∧ step waiting = .next (out (step waiting)) :=
  ⟨⟨start_inv, eq_next_out (by decide +kernel)⟩, waiting_inv, eq_next_out (by decide +kernel)⟩

theorem witness_HostActionsKeepTheInvariant :
    start.Inv ∧ hostAct (.load [0x12, 0x00]) start = .next (out (hostAct (.load [0x12, 0x00]) start)) ∧
    hostAct (.setKey 15 true) start = .next (out (hostAct (.setKey 15 true) start)) ∧
    hostAct (.reset 7 testFont .empty) start = .next (State.resetPort 7 testFont .empty) :=
  ⟨start_inv, eq_next_out (by decide +kernel), eq_next_out (by decide +kernel), rfl⟩

theorem witness_ReachableStatesStayInBounds :
    Reachable (State.resetPort 0 testFont .fault) ∧
    Reachable (out (hostAct (.load [0xF2, 0x0A]) (State.resetPort 0 testFont .fault))) :=
  ⟨.reset 0 testFont .fault, .host (.load [0xF2, 0x0A]) (.reset 0 testFont .fault) (eq_next_out (by decide +kernel))⟩

theorem witness_StepNeverWritesTheFont :
    step { start with I := 0x050, mem := [(0x200, 0xFF), (0x201, 0x55)] } =
      .next (out (step { start with I := 0x050, mem := [(0x200, 0xFF), (0x201, 0x55)] })) :=
  eq_next_out (by decide +kernel)

theorem witness_register_results :
    (atPc 0xFFD).pc.toNat + 2 ≤ 0xFFF ∧ 0xFFF < (atPc 0xFFE).pc.toNat + 2 := by decide +kernel

theorem witness_LoadImmediateResult :
    (atPc 0xFFD).pc.toNat + 2 ≤ 0xFFF ∧ 0xFFF < (atPc 0xFFE).pc.toNat + 2 := witness_register_results

theorem witness_AddImmediateWrapsWithoutFlag :
    (atPc 0xFFD).pc.toNat + 2 ≤ 0xFFF ∧ 0xFFF < (atPc 0xFFE).pc.toNat + 2 := witness_register_results

theorem witness_CopyRegisterResult :
    (atPc 0xFFD).pc.toNat + 2 ≤ 0xFFF ∧ 0xFFF < (atPc 0xFFE).pc.toNat + 2 := witness_register_results

theorem witness_LogicClearsTheFlag :
    (atPc 0xFFD).pc.toNat + 2 ≤ 0xFFF ∧ 0xFFF < (atPc 0xFFE).pc.toNat + 2 := witness_register_results

theorem witness_AddRegistersCarry :
    (atPc 0xFFD).pc.toNat + 2 ≤ 0xFFF ∧ 0xFFF < (atPc 0xFFE).pc.toNat + 2 := witness_register_results

theorem witness_SubtractRegistersNotBorrow :
    (atPc 0xFFD).pc.toNat + 2 ≤ 0xFFF ∧ 0xFFF < (atPc 0xFFE).pc.toNat + 2 := witness_register_results

theorem witness_ShiftsPutTheBitOutInTheFlag :
    (atPc 0xFFD).pc.toNat + 2 ≤ 0xFFF ∧ 0xFFF < (atPc 0xFFE).pc.toNat + 2 := witness_register_results

theorem witness_RandomByteIsMasked :
    (atPc 0xFFD).pc.toNat + 2 ≤ 0xFFF ∧ 0xFFF < (atPc 0xFFE).pc.toNat + 2 := witness_register_results

theorem witness_ClearTurnsEveryPixelOff :
    (atPc 0xFFD).pc.toNat + 2 ≤ 0xFFF ∧ 0xFFF < (atPc 0xFFE).pc.toNat + 2 := witness_register_results

theorem witness_LoadIndexResult :
    (atPc 0xFFD).pc.toNat + 2 ≤ 0xFFF ∧ 0xFFF < (atPc 0xFFE).pc.toNat + 2 := witness_register_results

theorem witness_FontAddressIsFiveTimesTheDigit :
    (atPc 0xFFD).pc.toNat + 2 ≤ 0xFFF ∧ 0xFFF < (atPc 0xFFE).pc.toNat + 2 := witness_register_results

theorem witness_ReadDelayTimer :
    (atPc 0xFFD).pc.toNat + 2 ≤ 0xFFF ∧ 0xFFF < (atPc 0xFFE).pc.toNat + 2 := witness_register_results

theorem witness_SetTimers :
    (atPc 0xFFD).pc.toNat + 2 ≤ 0xFFF ∧ 0xFFF < (atPc 0xFFE).pc.toNat + 2 := witness_register_results

theorem witness_JumpSetsThePc : exec (.jp 0xFFF) start = .next (out (exec (.jp 0xFFF) start)) :=
  answers_exec _ _ (by decide +kernel)

theorem witness_JumpV0NeverWraps :
    (withRegs [(0, 0xFF)]).V[0].toNat + (0xF00 : Addr12).toNat ≤ 0xFFF ∧
    0xFFF < (withRegs [(0, 0x01)]).V[0].toNat + (0xFFF : Addr12).toNat := by decide +kernel

theorem witness_CallPushesTheReturnAddress :
    { start with sp := 15 }.sp.val < 16 ∧ { start with sp := 16 }.sp.val = 16 := by decide +kernel

/-- Full stack, the top entry given. -/
def stacked (a : Half) : State := { start with stack := start.stack.set 15 a, sp := 16 }

theorem witness_ReturnPopsThePc :
    (0 < (stacked 0xFFF).sp.val ∧ (stacked 0xFFF).stack[15].toNat ≤ 0xFFF) ∧
    (0 < (stacked 0x1000).sp.val ∧ 0xFFF < (stacked 0x1000).stack[15].toNat) ∧ (stacked 0xFFF).sp.val - 1 = 15 ∧
    start.sp.val = 0 := by decide +kernel

/-- A call with 15 entries in use, and one with none whose subroutine made a nested call and returned, which left a
stale entry above sp. -/
def nested : State := { out (exec (.call 0x300) start) with stack := (out (exec (.call 0x300) start)).stack.set 1 0x302 }

theorem witness_CallThenReturnRoundTrip :
    ({ atPc 0xFFD with sp := 15 }.mode = .running ∧ { atPc 0xFFD with sp := 15 }.sp.val < 16 ∧
      { atPc 0xFFD with sp := 15 }.pc.toNat + 2 ≤ 0xFFF ∧
      exec (.call 0x300) { atPc 0xFFD with sp := 15 } = .next (out (exec (.call 0x300) { atPc 0xFFD with sp := 15 }))) ∧
    exec (.call 0x300) start = .next (out (exec (.call 0x300) start)) ∧
    (∀ j : Fin 16, j.val ≤ start.sp.val → nested.stack[j.val] = (out (exec (.call 0x300) start)).stack[j.val]) ∧
    nested.sp = (out (exec (.call 0x300) start)).sp ∧ nested.stack ≠ (out (exec (.call 0x300) start)).stack := by
  refine ⟨⟨rfl, ?_, ?_, answers_exec _ _ ?_⟩, answers_exec _ _ ?_, ?_, ?_, ?_⟩ <;> decide +kernel

/-- V1 = 1, the other registers 0, at `p`. -/
def oneAt (p : Half) : State := { withRegs [(1, 1)] with pc := p }

theorem witness_RegisterSkips :
    (oneAt 0xFFB).pc.toNat + skipBy ((oneAt 0xFFB).V[1] = 1) ≤ 0xFFF ∧
    0xFFF < (oneAt 0xFFC).pc.toNat + skipBy ((oneAt 0xFFC).V[1] = 1) ∧
    (oneAt 0xFFB).pc.toNat + skipBy ((oneAt 0xFFB).V[1] ≠ 0) ≤ 0xFFF ∧
    0xFFF < (oneAt 0xFFC).pc.toNat + skipBy ((oneAt 0xFFC).V[1] ≠ 0) ∧
    (oneAt 0xFFB).pc.toNat + skipBy ((oneAt 0xFFB).V[0] = (oneAt 0xFFB).V[2]) ≤ 0xFFF ∧
    0xFFF < (oneAt 0xFFC).pc.toNat + skipBy ((oneAt 0xFFC).V[0] = (oneAt 0xFFC).V[2]) ∧
    (oneAt 0xFFB).pc.toNat + skipBy ((oneAt 0xFFB).V[1] ≠ (oneAt 0xFFB).V[2]) ≤ 0xFFF ∧
    0xFFF < (oneAt 0xFFC).pc.toNat + skipBy ((oneAt 0xFFC).V[1] ≠ (oneAt 0xFFC).V[2]) ∧
    (oneAt 0xFFD).pc.toNat + skipBy ((oneAt 0xFFD).V[1] = 2) ≤ 0xFFF := by decide +kernel

/-- A sprite at the corner (63, 31) covers the wrapped pixel (0, 0) and not the pixel (8, 1). -/
theorem witness_BlitXorsTheSpriteWithWraparound :
    1 ≤ [(0xFF : Byte)].length ∧ (List.replicate 15 (0xFF : Byte)).length ≤ 15 ∧
    Covers (List.replicate 15 0xFF) 63 31 0 0 ∧ ¬ Covers [0x80] 63 31 0 0 := by
  refine ⟨by decide, by decide, ⟨1, 1, by decide, by decide, by decide, by decide, by decide⟩, ?_⟩
  rintro ⟨r, c, hr, hc, h1, h2, h3⟩
  have : r = 0 := by simpa using hr
  subst this
  exact absurd h2 (by decide)

theorem witness_DrawBlitsTheSpriteAtI :
    { atPc 0xFFD with I := 0xFF1 }.I.toNat + 15 ≤ 0x1000 ∧ { atPc 0xFFD with I := 0xFFF }.I.toNat + 1 ≤ 0x1000 ∧
    (atPc 0xFFD).pc.toNat + 2 ≤ 0xFFF := by decide +kernel

theorem witness_DrawOutOfRangeAndZeroHeight :
    ({ start with I := 0xFF2 }.I.toNat ≤ 0xFFF ∧ 0x1000 < { start with I := 0xFF2 }.I.toNat + 15) ∧
    ({ start with I := 0xFFF }.I.toNat ≤ 0xFFF ∧ 0x1000 < { start with I := 0xFFF }.I.toNat + 2) ∧
    start.drawZeroHeight = .fault ∧ { atPc 0xFFD with drawZeroHeight := .empty }.drawZeroHeight = .empty ∧
    { atPc 0xFFD with drawZeroHeight := .empty }.pc.toNat + 2 ≤ 0xFFF := by decide +kernel

/-- A sprite byte at 0x300, drawn at (0, 0) and, from the state the first draw leaves, again. -/
def draws : State := { start with I := 0x300, mem := [(0x300, 0x80)] }

theorem witness_DrawTwiceRestoresTheDisplay :
    exec (.drw 0 1 1) draws = .next (out (exec (.drw 0 1 1) draws)) ∧
    (out (exec (.drw 0 1 1) draws)).result = some .ok ∧
    exec (.drw 0 1 1) (out (exec (.drw 0 1 1) draws)) = .next (out (exec (.drw 0 1 1) (out (exec (.drw 0 1 1) draws)))) ∧
    (out (exec (.drw 0 1 1) (out (exec (.drw 0 1 1) draws)))).result = some .ok ∧
    (out (exec (.drw 0 1 1) draws)).I = draws.I ∧ (out (exec (.drw 0 1 1) draws)).V[0] = draws.V[0] ∧
    (out (exec (.drw 0 1 1) draws)).V[1] = draws.V[1] ∧ (out (exec (.drw 0 1 1) draws)).byte 0x300 = draws.byte 0x300 := by
  refine ⟨answers_exec _ _ ?_, ?_, answers_exec _ _ ?_, ?_, ?_, ?_, ?_, ?_⟩ <;> decide +kernel

theorem witness_AddToIndexFaultsPastMemory :
    ({ withRegs [(2, 0x0F)] with I := 0xFF0 }.I.toNat + (withRegs [(2, 0x0F)]).V[2].toNat ≤ 0xFFF) ∧
    (atPc 0xFFD).pc.toNat + 2 ≤ 0xFFF ∧
    0xFFF < { withRegs [(2, 0x10)] with I := 0xFF0 }.I.toNat + (withRegs [(2, 0x10)]).V[2].toNat := by decide +kernel

theorem witness_StoreDecimalDigits :
    { atPc 0xFFD with I := 0x050 }.mem.wf testFont = true ∧ 0x04F < { atPc 0xFFD with I := 0x050 }.I.toNat ∧
    { atPc 0xFFD with I := 0xFFD }.I.toNat + 2 ≤ 0xFFF ∧ (atPc 0xFFD).pc.toNat + 2 ≤ 0xFFF := by decide +kernel

theorem witness_StoreRegisters :
    { atPc 0xFFD with I := 0x050 }.mem.wf testFont = true ∧ 0x04F < { atPc 0xFFD with I := 0x050 }.I.toNat ∧
    { atPc 0xFFD with I := 0xFF0 }.I.toNat + (15 : Reg).val ≤ 0xFFF ∧ (atPc 0xFFD).pc.toNat + 2 ≤ 0xFFF := by
  decide +kernel

theorem witness_LoadRegisters :
    { atPc 0xFFD with I := 0xFF0 }.I.toNat + (15 : Reg).val ≤ 0xFFF ∧ (0 : Reg).val ≤ (15 : Reg).val ∧
    (14 : Reg).val < (15 : Reg).val ∧ (atPc 0xFFD).pc.toNat + 2 ≤ 0xFFF := by decide +kernel

theorem witness_TickDecrementsOncePastTheThreshold :
    ({ start with now := 16666667 }.lastTick < { start with now := 16666667 }.now ∧
      1000000000 < 60 * ({ start with now := 16666667 }.now - { start with now := 16666667 }.lastTick)) ∧
    start.now ≤ start.lastTick ∧
    60 * ({ start with now := 16666666 }.now - { start with now := 16666666 }.lastTick) ≤ 1000000000 := by decide +kernel

theorem witness_KeypadSkips :
    ((withRegs [(2, 0x0F)]).V[2].toNat ≤ 0xF ∧ 0xFFB + skipBy (start.keys[15] = false) ≤ 0xFFF ∧
      0xFFB + skipBy ((start.putKey 15 true).keys[15] = true) ≤ 0xFFF) ∧
    0xF < (withRegs [(2, 0x10)]).V[2].toNat := by decide +kernel

theorem witness_KeyWaitEntry : (atPc 0xFFF).pc.toNat ≤ 0xFFF := by decide +kernel

theorem witness_KeyWaitStep :
    waiting.mode = .awaitingKey 2 start.keys ∧ (∀ k : KeyIdx, ¬ (start.keys[k.val] = false ∧ waiting.keys[k.val] = true)) ∧
    waitingPressed.mode = .awaitingKey 2 start.keys ∧ (start.keys[3] = false ∧ waitingPressed.keys[3] = true) ∧
    { waitingPressed with pc := 0xFFD }.pc.toNat + 2 ≤ 0xFFF ∧ 0xFFF < { waitingPressed with pc := 0xFFE }.pc.toNat + 2 := by
  decide +kernel

theorem witness_AnyPressedKeyCanBeReported :
    waitingPressed.mode = .awaitingKey 2 start.keys ∧ waitingPressed.pc.toNat + 2 ≤ 0xFFF ∧ start.keys[3] = false ∧
    waitingPressed.keys[3] = true := by decide +kernel

/-- FX0A stored at the pc, not yet run. -/
def entering : State := { waiting with mode := .running }

theorem witness_KeyWaitIsEnteredAndLeftAsStated :
    (entering.mode = .running ∧ step entering = .next (out (step entering)) ∧
      (out (step entering)).mode = .awaitingKey 2 start.keys) ∧
    waitingPressed.mode = .awaitingKey 2 start.keys ∧ step waitingPressed = .next (out (step waitingPressed)) :=
  ⟨⟨rfl, eq_next_out (by decide +kernel), by decide +kernel⟩, rfl, eq_next_out (by decide +kernel)⟩

theorem witness_OnlyDestinationRegistersChange :
    exec (.addVxVy 0 1) start = .next (out (exec (.addVxVy 0 1) start)) ∧ writesReg 1 (.addVxVy 0 1) = false ∧
    writesReg 14 (.addVxVy 0 1) = false ∧ writesReg 15 (.ldVxMi 14) = false :=
  ⟨answers_exec _ _ (by decide +kernel), by decide, by decide, by decide⟩

theorem witness_OnlyStoredBytesChange :
    exec (.ldMiVx 15) { start with I := 0xFF0 } = .next (out (exec (.ldMiVx 15) { start with I := 0xFF0 })) ∧
    storedRange { start with I := 0xFF0 } (.ldMiVx 15) = some (0xFF0, 16) ∧ 0xFEF < 0xFF0 ∧ 0xFF0 + 16 ≤ 0x1000 ∧
    storedRange start (.ldVxMi 15) = none :=
  ⟨answers_exec _ _ (by decide +kernel), by decide +kernel, by decide, by decide, by decide⟩

theorem witness_OnlyNamedInstructionsWriteEachUnit :
    exec (.ldINnn 0xFFF) start = .next (out (exec (.ldINnn 0xFFF) start)) ∧
    (out (exec (.ldINnn 0xFFF) start)).I ≠ start.I ∧ (out (exec (.call 0x300) start)).stack ≠ start.stack ∧
    (out (exec (.call 0x300) start)).sp ≠ start.sp ∧ (out (exec (.drw 0 1 1) draws)).disp ≠ draws.disp ∧
    (out (exec (.ldDtVx 0) (withRegs [(0, 1)]))).dt ≠ start.dt ∧ (out (exec (.ldStVx 0) (withRegs [(0, 1)]))).st ≠ start.st := by
  refine ⟨answers_exec _ _ ?_, ?_, ?_, ?_, ?_, ?_, ?_⟩ <;> decide +kernel

theorem witness_NoInstructionWritesKeypadOrPorts :
    (exec (.ldVxK 2) start = .next (out (exec (.ldVxK 2) start)) ∧ (out (exec (.ldVxK 2) start)).mode ≠ start.mode) ∧
    exec .ret start = .next (out (exec .ret start)) ∧ (out (exec .ret start)).mode ≠ start.mode := by
  refine ⟨⟨answers_exec _ _ ?_, ?_⟩, answers_exec _ _ ?_, ?_⟩ <;> decide +kernel

theorem witness_OnlyRandomReadsTheRandomByte :
    exec (.rndVxNn 3 0x0F) start = .next (out (exec (.rndVxNn 3 0x0F) start)) ∧
    exec (.ldVxK 2) start = .next (out (exec (.ldVxK 2) start)) ∧ ∀ x nn, Instr.ldVxK 2 ≠ .rndVxNn x nn :=
  ⟨answers_exec _ _ (by decide +kernel), answers_exec _ _ (by decide +kernel), fun _ _ h => by simp at h⟩

/-- The coming turn writes key 3 twice: the last write counts; key 15 is not written. -/
theorem witness_HostTurnWritesOnlyKeypadAndPins :
    { start with schedule := [{ quiet with keyWrites := [(3, true), (3, false)] }] }.comingTurn.keyWrites =
      [(3, true)] ++ (3, false) :: [] ∧ (∀ q : Bool, ((3 : KeyIdx), q) ∉ ([] : List (KeyIdx × Bool))) ∧
    ∀ p, ((15 : KeyIdx), p) ∉ [((3 : KeyIdx), true), (3, false)] := by decide +kernel

theorem witness_ResetValues : (79 : Fin 80).val = 0x04F ∧ (80 : Nat) ≤ 0x050 := by decide

theorem witness_LoadCopiesTheProgram :
    start.mem.wf start.font = true ∧ start.loaded = false ∧ start.stepNo = 0 ∧
    0x200 + (List.replicate 0xE00 (0 : Byte)).length ≤ 4096 ∧ 4096 < 0x200 + (List.replicate 0xE01 (0 : Byte)).length := by
  refine ⟨by decide +kernel, rfl, rfl, ?_, ?_⟩
  · rw [List.length_replicate]
  · rw [List.length_replicate]; decide

theorem witness_HostPortsRefuseContractViolations :
    0xE00 < (List.replicate 0xE01 (0 : Byte)).length ∧ { start with loaded := true }.loaded = true ∧
    waiting.stepNo ≠ 0 ∧ 0xF < 0x10 := by
  refine ⟨?_, rfl, by decide +kernel, by decide⟩
  rw [List.length_replicate]
  decide

end Sys2Proof.Tests
end

section
/-! SUPPORT. Decode as the table of match and mask (30_encoding.md R106), and the fields of a word (R102, R103). -/

namespace Sys2Proof.Proofs.Encoding

open Sys2Proof Sys2Proof.Machine Sys2Proof.Claims

/-! ## A mask of whole nibbles tests fields -/

theorem eq_iff_nibbles {a b : Half} :
    a = b ↔ nibble1 a = nibble1 b ∧ nibble2 a = nibble2 b ∧ nibble3 a = nibble3 b ∧ nibble4 a = nibble4 b := by
  simp only [← BitVec.toNat_inj, nibble1_toNat, nibble2_toNat, nibble3_toNat, nibble4_toNat]
  omega

theorem fieldNN_eq_iff_nibbles {a b : Half} :
    fieldNN a = fieldNN b ↔ nibble3 a = nibble3 b ∧ nibble4 a = nibble4 b := by
  simp only [← BitVec.toNat_inj, fieldNN_toNat, nibble3_toNat, nibble4_toNat]
  omega

theorem and_eq_iff_nibbles {w mask m : Half} :
    w &&& mask = m ↔ nibble1 w &&& nibble1 mask = nibble1 m ∧ nibble2 w &&& nibble2 mask = nibble2 m ∧
      nibble3 w &&& nibble3 mask = nibble3 m ∧ nibble4 w &&& nibble4 mask = nibble4 m := by
  simp only [eq_iff_nibbles, nibble1, nibble2, nibble3, nibble4, BitVec.extractLsb'_and]

theorem and_ones_nibble (x : BitVec 4) : x &&& 15#4 = x := BitVec.and_allOnes

/-- Mask 0xF000: the row is picked by n1. -/
theorem and_F000_eq_iff {w m : Half} (hm : m &&& 0xF000 = m) : w &&& 0xF000 = m ↔ nibble1 w = nibble1 m := by
  obtain ⟨-, h2, h3, h4⟩ := and_eq_iff_nibbles.1 hm
  rw [and_eq_iff_nibbles, ← h2, ← h3, ← h4]
  simp [nibble1, nibble2, nibble3, nibble4, and_ones_nibble]

/-- Mask 0xF00F: the row is picked by n1 and n4. -/
theorem and_F00F_eq_iff {w m : Half} (hm : m &&& 0xF00F = m) :
    w &&& 0xF00F = m ↔ nibble1 w = nibble1 m ∧ nibble4 w = nibble4 m := by
  obtain ⟨-, h2, h3, -⟩ := and_eq_iff_nibbles.1 hm
  rw [and_eq_iff_nibbles, ← h2, ← h3]
  simp [nibble1, nibble2, nibble3, nibble4, and_ones_nibble]

/-- Mask 0xF0FF: the row is picked by n1 and NN. -/
theorem and_F0FF_eq_iff {w m : Half} (hm : m &&& 0xF0FF = m) :
    w &&& 0xF0FF = m ↔ nibble1 w = nibble1 m ∧ fieldNN w = fieldNN m := by
  obtain ⟨-, h2, -, -⟩ := and_eq_iff_nibbles.1 hm
  rw [and_eq_iff_nibbles, ← h2, fieldNN_eq_iff_nibbles]
  simp [nibble1, nibble2, nibble3, nibble4, and_ones_nibble]

/-! ## A word that decodes passes the test of its row -/

/-- The row of the table with a given number. -/
def rowAt (k : Nat) : TableRow := opcodeTable.getD (k - 1) (0, 0, 0)

theorem rowAt_eq : ∀ row ∈ opcodeTable, rowAt row.1 = row := by decide

/-- `w` passes the test of the row with a given number. -/
def PassesRow (w : Half) (k : Nat) : Prop := w &&& (rowAt k).2.2 = (rowAt k).2.1

section Soundness

variable {w : Half} {i : Instr}

theorem passesRow_of_decode0 (h1 : (nibble1 w).toNat = 0) (h : decode0 w = some i) : PassesRow w (rowNumber i) := by
  have hw : w.toNat = (fieldNNN w).toNat := by
    rw [nibble1_toNat] at h1
    rw [fieldNNN_toNat]
    omega
  unfold decode0 at h
  split at h
  case h_1 hn => cases h; rw [BitVec.eq_of_toNat_eq (hw.trans hn) (y := 0x00E0)]; rfl
  case h_2 hn => cases h; rw [BitVec.eq_of_toNat_eq (hw.trans hn) (y := 0x00EE)]; rfl
  case h_3 => cases h

theorem passesRow_of_decode8 (h1 : (nibble1 w).toNat = 8) (h : decode8 w = some i) : PassesRow w (rowNumber i) := by
  unfold decode8 at h
  split at h <;> cases h
  all_goals
    dsimp only [rowNumber]
    exact (and_F00F_eq_iff rfl).2 ⟨BitVec.eq_of_toNat_eq h1, BitVec.eq_of_toNat_eq ‹(nibble4 w).toNat = _›⟩

theorem passesRow_of_decodeE (h1 : (nibble1 w).toNat = 0xE) (h : decodeE w = some i) : PassesRow w (rowNumber i) := by
  unfold decodeE at h
  split at h <;> cases h
  all_goals
    dsimp only [rowNumber]
    exact (and_F0FF_eq_iff rfl).2 ⟨BitVec.eq_of_toNat_eq h1, BitVec.eq_of_toNat_eq ‹(fieldNN w).toNat = _›⟩

theorem passesRow_of_decodeF (h1 : (nibble1 w).toNat = 0xF) (h : decodeF w = some i) : PassesRow w (rowNumber i) := by
  unfold decodeF at h
  split at h <;> cases h
  all_goals
    dsimp only [rowNumber]
    exact (and_F0FF_eq_iff rfl).2 ⟨BitVec.eq_of_toNat_eq h1, BitVec.eq_of_toNat_eq ‹(fieldNN w).toNat = _›⟩

theorem passesRow_of_decodeWord (h : decodeWord w = some i) : PassesRow w (rowNumber i) := by
  unfold decodeWord at h
  split at h
  case h_1 h1 => exact passesRow_of_decode0 h1 h
  case h_9 h1 => exact passesRow_of_decode8 h1 h
  case h_15 h1 => exact passesRow_of_decodeE h1 h
  case h_16 h1 => exact passesRow_of_decodeF h1 h
  case h_17 => cases h
  case h_6 h1 | h_10 h1 =>
    split at h
    case isTrue h4 => cases h; dsimp only [rowNumber]; exact (and_F00F_eq_iff rfl).2 ⟨BitVec.eq_of_toNat_eq h1, h4⟩
    case isFalse => cases h
  all_goals
    cases h
    dsimp only [rowNumber]
    exact (and_F000_eq_iff rfl).2 (BitVec.eq_of_toNat_eq ‹(nibble1 w).toNat = _›)

end Soundness

/-! ## A word that passes the test of a row decodes in it -/

/-- The number of the row a word decodes in. -/
def decodedRow (w : Half) : Option Nat := (decodeWord w).map rowNumber

theorem decodedRow_match : ∀ row ∈ opcodeTable, decodedRow row.2.1 = some row.1 := by decide

section Completeness

variable {w m : Half}

theorem decode8_row_congr (h4 : nibble4 w = nibble4 m) : (decode8 w).map rowNumber = (decode8 m).map rowNumber := by
  unfold decode8
  rw [h4]
  split <;> rfl

theorem decodeE_row_congr (hn : fieldNN w = fieldNN m) : (decodeE w).map rowNumber = (decodeE m).map rowNumber := by
  unfold decodeE
  rw [hn]
  split <;> rfl

theorem decodeF_row_congr (hn : fieldNN w = fieldNN m) : (decodeF w).map rowNumber = (decodeF m).map rowNumber := by
  unfold decodeF
  rw [hn]
  split <;> rfl

/-- The row depends on n1 and, for the opcodes that have one, on the function field n4 or NN. -/
theorem decodedRow_congr (h0 : (nibble1 m).toNat ≠ 0) (h1 : nibble1 w = nibble1 m)
    (h4 : (nibble1 m).toNat ∈ [0x5, 0x8, 0x9] → nibble4 w = nibble4 m)
    (hn : (nibble1 m).toNat ∈ [0xE, 0xF] → fieldNN w = fieldNN m) : decodedRow w = decodedRow m := by
  unfold decodedRow decodeWord
  rw [h1]
  split
  case h_1 hop => exact absurd hop h0
  case h_9 hop => exact decode8_row_congr (h4 (by simp [hop]))
  case h_15 hop => exact decodeE_row_congr (hn (by simp [hop]))
  case h_16 hop => exact decodeF_row_congr (hn (by simp [hop]))
  case h_6 hop | h_10 hop =>
    rw [h4 (by simp [hop])]
    split <;> rfl
  all_goals rfl

/-- A row tests the whole word, or n1 with the function field of its opcode. -/
theorem mask_of_mem_opcodeTable : ∀ row ∈ opcodeTable, row.2.1 &&& row.2.2 = row.2.1 ∧
    (row.2.2 = 0xFFFF ∨ (nibble1 row.2.1).toNat ≠ 0 ∧
      (row.2.2 = 0xF000 ∧ (nibble1 row.2.1).toNat ∉ [0x5, 0x8, 0x9] ∧ (nibble1 row.2.1).toNat ∉ [0xE, 0xF] ∨
       row.2.2 = 0xF00F ∧ (nibble1 row.2.1).toNat ∉ [0xE, 0xF] ∨
       row.2.2 = 0xF0FF)) := by decide

theorem decodedRow_of_passes {row : TableRow} (hrow : row ∈ opcodeTable) (h : w &&& row.2.2 = row.2.1) :
    decodedRow w = some row.1 := by
  rw [← decodedRow_match row hrow]
  obtain ⟨hm, hmask⟩ := mask_of_mem_opcodeTable row hrow
  obtain hmask | ⟨h0, ⟨hmask, hop4, hopNN⟩ | ⟨hmask, hopNN⟩ | hmask⟩ := hmask <;> rw [hmask] at h hm
  · rw [← h, show w &&& 0xFFFF = w from BitVec.and_allOnes]
  · exact decodedRow_congr h0 ((and_F000_eq_iff hm).1 h) (absurd · hop4) (absurd · hopNN)
  · obtain ⟨h1, h4⟩ := (and_F00F_eq_iff hm).1 h
    exact decodedRow_congr h0 h1 (fun _ => h4) (absurd · hopNN)
  · obtain ⟨h1, hn⟩ := (and_F0FF_eq_iff hm).1 h
    exact decodedRow_congr h0 h1 (fun _ => (fieldNN_eq_iff_nibbles.1 hn).2) (fun _ => hn)

end Completeness

/-- Settles O3: a mask of whole nibbles tests the fields that the decoder branches on. A decoded word passes the test
of its row by cases of the decoder; a word that passes decodes in the row that the row's own match decodes in. -/
theorem decodeTestsMatchAndMask : Obligations.DecodeTestsMatchAndMask := by
  intro w row hrow
  constructor
  · intro h
    exact Option.map_eq_some_iff.1 (decodedRow_of_passes hrow h)
  · rintro ⟨i, hi, hk⟩
    have h := passesRow_of_decodeWord hi
    rwa [PassesRow, hk, rowAt_eq row hrow] at h

/-! ## The operand fields as numbers -/

theorem fieldX_val (w : Half) : (fieldX w).val = w.toNat / 256 % 16 := nibble2_toNat w

theorem fieldY_val (w : Half) : (fieldY w).val = w.toNat / 16 % 16 := nibble3_toNat w

theorem fieldN_eq (w : Half) : fieldN w = w.toNat % 16 := nibble4_toNat w

/-- `zext_16(NNN)` keeps the number. -/
theorem absolute_toNat (nnn : Addr12) : (absolute nnn).toNat = nnn.toNat :=
  BitVec.toNat_setWidth_of_le (by decide)

/-- Settles O5: each field is read off the number of the word by division and remainder. -/
theorem operandFieldsOfAWord : Obligations.OperandFieldsOfAWord := fun w =>
  ⟨nibble1_toNat w, nibble2_toNat w, nibble3_toNat w, nibble4_toNat w, fieldX_val w, fieldY_val w, fieldN_eq w,
    fieldNN_toNat w, fieldNNN_toNat w, (absolute_toNat _).trans (fieldNNN_toNat w)⟩

end Sys2Proof.Proofs.Encoding
end

section
/-! SUPPORT. The new pc of every instruction is the one of the table (40_step.md R135). -/

namespace Sys2Proof.Proofs.Step

open Sys2Proof Sys2Proof.Machine Sys2Proof.Claims

/-! ## How a meaning ends -/

section

/-- The two answers of a meaning that began in `s` and has the new pc `npc`: a fault out of `s`, or the end of the step
at `npc`, which `State.finish` checks. -/
def EndsAt (s : State) (npc : Nat) (o : Result) : Prop :=
  (∃ r, o = s.raise r) ∨ ∃ s', o = .next (s.finish s' npc .ok)

variable {s s' t : State} {npc : Nat}

theorem endsAt_raise (r : Fault) : EndsAt s npc (s.raise r) := .inl ⟨r, rfl⟩

theorem endsAt_complete {c : NextPc} (h : c.target s.pc.toNat = npc) : EndsAt s npc (s.complete s' c) :=
  .inr ⟨s', by rw [complete_eq, h]⟩

/-- Without a fault the new pc passed its check, so its 16 bits hold all of it. -/
theorem EndsAt.pc_of_not_faulted (h : EndsAt s npc (.next t)) (ht : ∀ r, t.mode ≠ .faulted r) :
    t.pc.toNat = npc := by
  obtain ⟨r, h⟩ | ⟨s', h⟩ := h
  · cases h
    exact absurd rfl (ht r)
  · cases h
    obtain ⟨hle, he⟩ | ⟨-, he⟩ := State.finish_cases s s' npc .ok
    · rw [he]
      exact Nat.mod_eq_of_lt (by omega)
    · exact absurd (by rw [he]; rfl) (ht (.pcOutOfRange npc))

end

/-! ## The operands of the table -/

theorem target_skipIf (pc : Nat) (b : Bool) : (skipIf b).target pc = pc + if b then 4 else 2 := by
  cases b <;> rfl

/-- A key index is the value of the register. -/
theorem keyIndex_val {v : Byte} {k : KeyIdx} (h : keyIndex v = some k) : v.toNat = k.val := by
  unfold keyIndex at h
  split at h <;> cases h
  rfl

/-! ## The table -/

/-- Every instruction faults out of the state it began in or ends at the new pc of the table. -/
theorem exec_endsAt_newPc (i : Instr) (s : State) : EndsAt s (newPc s i) (exec i s) := by
  cases i with
  | cls | ldVxNn | addVxNn | ldVxVy | orVxVy | andVxVy | xorVxVy | addVxVy | subVxVy | shrVx | subnVxVy | shlVx
  | rndVxNn | ldINnn | ldVxDt | ldDtVx | ldStVx | ldFVx => exact endsAt_complete (c := .advance) rfl
  | ldVxK => exact endsAt_complete (c := .stay) rfl
  | jpV0 => exact endsAt_complete (c := .transfer _) rfl
  | jp nnn => exact endsAt_complete (Encoding.absolute_toNat nnn)
  | call nnn =>
    dsimp only [exec, execCall]
    split
    · exact endsAt_raise _
    · exact endsAt_complete (Encoding.absolute_toNat nnn)
  | ret =>
    dsimp only [exec, execRet]
    by_cases h : s.sp.val = 0
    · rw [State.pop_eq_none h]
      exact endsAt_raise _
    · rw [State.pop_eq_some h]
      exact endsAt_complete (by simp [NextPc.target, newPc, show s.sp.val - 1 < 16 by omega])
  | seVxNn | sneVxNn | seVxVy | sneVxVy => exact endsAt_complete (by simp [target_skipIf, newPc])
  | skp | sknp =>
    dsimp only [exec, execSkp, execSknp]
    split
    · exact endsAt_raise _
    case h_2 k hk =>
      exact endsAt_complete (by cases hkey : s.keys[k.val] <;> simp [target_skipIf, newPc, keyIndex_val hk, hkey])
  | addIVx | ldBVx | ldMiVx | ldVxMi =>
    dsimp only [exec, execAddIVx, execLdBVx, execLdMiVx, execLdVxMi]
    split
    · exact endsAt_raise _
    · exact endsAt_complete rfl
  | drw =>
    dsimp only [exec, execDrw]
    split
    · split
      · exact endsAt_raise _
      · exact endsAt_complete rfl
    · split
      · exact endsAt_raise _
      · exact endsAt_complete rfl

/-- Settles O13: an instruction that does not fault ends at the new pc of the table, which fits the pc. -/
theorem nextPcFollowsTheTable : Obligations.NextPcFollowsTheTable := by
  intro i s t _ hexec hmode
  have hends := exec_endsAt_newPc i s
  rw [hexec] at hends
  exact hends.pc_of_not_faulted hmode

end Sys2Proof.Proofs.Step
end

section
/-! SUPPORT. What the transfers of control do to the state (41_control_flow.md). -/

namespace Sys2Proof.Proofs.ControlFlow

open Sys2Proof Sys2Proof.Machine Sys2Proof.Claims

/-- A transfer to an absolute address always passes the pc check, and the pc holds the whole address. -/
theorem complete_transfer_absolute (s s' : State) (nnn : Addr12) :
    s.complete s' (.transfer (absolute nnn).toNat) = .next { s' with pc := absolute nnn, result := some .ok } := by
  rw [complete_eq, NextPc.target, State.finish_of_le _ (absolute_toNat_le nnn), BitVec.ofNat_toNat,
    BitVec.setWidth_eq]

/-- Fetch faults exactly where the second byte of the word would lie above 0xFFF. -/
theorem fetch_eq_none_iff (s : State) : s.fetch = none ↔ 0xFFE < s.pc.toNat := by
  simp [State.fetch]

/-- Settles O27: every 12-bit target passes the pc check, and a pc of 0xFFF is above the last address that can be
fetched from. -/
theorem jumpSetsThePc : Obligations.JumpSetsThePc := by
  intro nnn s
  have hjump : exec (.jp nnn) s = .next { s with pc := absolute nnn, result := some .ok } :=
    complete_transfer_absolute s s nnn
  refine ⟨hjump, ?_⟩
  rintro t rfl hexec
  cases hjump.symm.trans hexec
  exact (fetch_eq_none_iff _).2 (show 0xFFE < (absolute 0xFFF).toNat by decide)

end Sys2Proof.Proofs.ControlFlow
end

section
/-! SUPPORT. The register loads and the immediate sum: one register and the pc are written (42_alu.md R201 to R203). -/

namespace Sys2Proof.Proofs.Alu

open Sys2Proof Sys2Proof.Machine Sys2Proof.Claims

section

variable {s : State} (h : s.pc.toNat + 2 ≤ 0xFFF)

include h

/-- An advance within memory writes the pc and the result over what the instruction wrote. -/
theorem complete_advance (s' : State) :
    s.complete s' .advance = .next { s' with pc := s.pc + 2, result := some .ok } := by
  have hpc : BitVec.ofNat 16 (s.pc.toNat + 2) = s.pc + 2 := by simp [BitVec.ofNat_add]
  rw [complete_eq, NextPc.target, State.finish_of_le _ h, hpc]

/-- Writing one register and advancing leaves everything but that register, the pc and the result. -/
theorem complete_advance_setV (x : Reg) (b : Byte) :
    s.complete (s.setV x b) .advance =
      .next { s with V := s.V.set x.val b, pc := s.pc + 2, result := some .ok } :=
  complete_advance h (s.setV x b)

end

theorem add8_toNat (a b : Byte) : (add8 a b).toNat = (a.toNat + b.toNat) % 256 := by
  simp [add8]

/-- Settles O19: the meaning is the register write of NN followed by an advance. -/
theorem loadImmediateResult : Obligations.LoadImmediateResult :=
  fun x nn _ h => complete_advance_setV h x nn

/-- Settles O20: the byte written is `add8`, whose value is the sum modulo 256, and no second register is written. -/
theorem addImmediateWrapsWithoutFlag : Obligations.AddImmediateWrapsWithoutFlag :=
  fun x nn s h => ⟨add8 (s.v x) nn, add8_toNat (s.v x) nn, complete_advance_setV h x (add8 (s.v x) nn)⟩

/-- Settles O21: the byte written is VY as it was before the step, for X = Y too. -/
theorem copyRegisterResult : Obligations.CopyRegisterResult :=
  fun x y s h => complete_advance_setV h x (s.v y)

end Sys2Proof.Proofs.Alu
end

section
/-! SUPPORT. The framebuffer under 00E0 and under a whole blit (43_display.md R244 to R249). -/

namespace Sys2Proof.Proofs.Framebuffer

open Sys2Proof Sys2Proof.Machine Sys2Proof.Claims

/-! ## Clearing -/

/-- An advance past 0xFFF discards what the instruction wrote and faults out of the state it began in. -/
theorem complete_advance_of_gt {s : State} (h : 0xFFF < s.pc.toNat + 2) (s' : State) :
    s.complete s' .advance = .next (faultedWith s (.pcOutOfRange (s.pc.toNat + 2))) := by
  rw [complete_eq, NextPc.target, State.finish_of_gt _ h]
  rfl

/-- Settles O33: the display written is `Display.clear`, and the step ends as an advance does. -/
theorem clearTurnsEveryPixelOff : Obligations.ClearTurnsEveryPixelOff :=
  fun _ => ⟨fun h => ⟨Display.clear, Display.pixel_clear, Alu.complete_advance h _⟩,
    fun h => complete_advance_of_gt h _⟩

/-! ## Inverting a set of pixels -/

/-- From `a` to `b` exactly the pixels in `P` are inverted, and a collision is added exactly when one of them was set
in `a`. -/
structure Inverts (P : Fin 64 → Fin 32 → Prop) (a b : BlitAcc) : Prop where
  inside : ∀ px py, P px py → b.1.pixel px py = !a.1.pixel px py
  outside : ∀ px py, ¬ P px py → b.1.pixel px py = a.1.pixel px py
  collides : b.2 = true ↔ a.2 = true ∨ ∃ px py, P px py ∧ a.1.pixel px py = true

section

variable {P Q R : Fin 64 → Fin 32 → Prop} {a b c : BlitAcc}

theorem Inverts.refl (hP : ∀ px py, ¬ P px py) : Inverts P a a where
  inside px py h := absurd h (hP px py)
  outside _ _ _ := rfl
  collides := by simp [hP]

/-- On disjoint sets a pixel visited second is still as it was before the first, so one after the other inverts the
union and collides as the union does (43_display.md R247). -/
theorem Inverts.trans (hab : Inverts P a b) (hbc : Inverts Q b c) (hdisj : ∀ px py, P px py → ¬ Q px py)
    (hR : ∀ px py, R px py ↔ P px py ∨ Q px py) : Inverts R a c where
  inside px py h := by
    obtain hP | hQ := (hR px py).1 h
    · rw [hbc.outside px py (hdisj px py hP), hab.inside px py hP]
    · rw [hbc.inside px py hQ, hab.outside px py fun hP => hdisj px py hP hQ]
  outside px py h := by
    obtain ⟨hP, hQ⟩ := not_or.1 (mt (hR px py).2 h)
    rw [hbc.outside px py hQ, hab.outside px py hP]
  collides := by
    have hQset : ∀ px py, (Q px py ∧ b.1.pixel px py = true) ↔ (Q px py ∧ a.1.pixel px py = true) := fun px py =>
      and_congr_right fun hQ => by rw [hab.outside px py fun hP => hdisj px py hP hQ]
    simp only [hbc.collides, hab.collides, hQset, hR, or_and_right, exists_or, or_assoc]

end

/-! ## One column, one row, all rows -/

/-- The pixel (px, py) is where column c of the sprite row lands, and the bit there is 1. -/
def ColumnCovers (row : Byte) (x0 y c : Nat) (px : Fin 64) (py : Fin 32) : Prop :=
  (x0 + c) % 64 = px.val ∧ y % 32 = py.val ∧ row.getLsbD (7 - c) = true

theorem blitColumn_inverts (row : Byte) (x0 y c : Nat) (a : BlitAcc) :
    Inverts (ColumnCovers row x0 y c) a (blitColumn row x0 y a c) where
  inside px py h := by
    obtain ⟨hx, hy, hbit⟩ := h
    simp [blitColumn_fst_pixel, Fin.ext_iff, hx, hy, hbit]
  outside px py h := by
    have hmiss : (row.getLsbD (7 - c) && decide (px = Fin.ofNat 64 (x0 + c) ∧ py = Fin.ofNat 32 y)) = false := by
      rw [← Bool.not_eq_true, Bool.and_eq_true, decide_eq_true_eq]
      rintro ⟨hbit, rfl, rfl⟩
      exact h ⟨rfl, rfl, hbit⟩
    rw [blitColumn_fst_pixel, hmiss, Bool.xor_false]
  collides := by
    simp only [blitColumn, Bool.or_eq_true, Bool.and_eq_true]
    refine or_congr_right ⟨fun ⟨hbit, hset⟩ => ⟨_, _, ⟨rfl, rfl, hbit⟩, hset⟩, ?_⟩
    rintro ⟨px, py, ⟨hx, hy, hbit⟩, hset⟩
    obtain rfl : Fin.ofNat 64 (x0 + c) = px := Fin.ext hx
    obtain rfl : Fin.ofNat 32 y = py := Fin.ext hy
    exact ⟨hbit, hset⟩

/-- Up to 64 columns land on distinct pixels, so they invert what each of them covers. -/
theorem blitColumns_inverts (row : Byte) (x0 y : Nat) (a : BlitAcc) (n : Nat) (hn : n ≤ 64) :
    Inverts (fun px py => ∃ c < n, ColumnCovers row x0 y c px py) a
      ((List.range n).foldl (blitColumn row x0 y) a) := by
  induction n with
  | zero => exact .refl (by simp)
  | succ n ih =>
    rw [List.range_succ, List.foldl_append]
    refine (ih (by omega)).trans (blitColumn_inverts row x0 y n _) ?_ fun px py => Nat.exists_lt_succ_right
    rintro px py ⟨c, hc, hx, -⟩ ⟨hx', -⟩
    omega

theorem blitRow_inverts (row : Byte) (x0 y : Nat) (a : BlitAcc) :
    Inverts (fun px py => ∃ c < 8, ColumnCovers row x0 y c px py) a (blitRow row x0 y a) :=
  blitColumns_inverts row x0 y a 8 (by decide)

/-- A sprite covers what its first row covers and what the others cover one line below. -/
theorem covers_cons {row : Byte} {rows : List Byte} {x0 y0 : Nat} {px : Fin 64} {py : Fin 32} :
    Covers (row :: rows) x0 y0 px py ↔
      (∃ c < 8, ColumnCovers row x0 y0 c px py) ∨ Covers rows x0 (y0 + 1) px py := by
  constructor
  · rintro ⟨r, c, hr, hc, hcovers⟩
    cases r with
    | zero => exact .inl ⟨c, hc, hcovers⟩
    | succ r => exact .inr ⟨r, c, Nat.lt_of_succ_lt_succ hr, hc, by rw [Nat.add_right_comm y0 1 r]; exact hcovers⟩
  · rintro (⟨c, hc, hcovers⟩ | ⟨r, c, hr, hc, hcovers⟩)
    · exact ⟨0, c, Nat.succ_pos _, hc, hcovers⟩
    · exact ⟨r + 1, c, Nat.succ_lt_succ hr, hc, by rw [Nat.add_right_comm y0 1 r] at hcovers; exact hcovers⟩

/-- Up to 32 rows land on distinct lines, so they invert what the sprite covers. -/
theorem blitRows_inverts (x0 : Nat) (rows : List Byte) (y : Nat) (a : BlitAcc) (hlen : rows.length ≤ 32) :
    Inverts (Covers rows x0 y) a (blitRows x0 rows y a) := by
  induction rows generalizing y a with
  | nil => exact .refl fun _ _ ⟨_, _, hr, _⟩ => Nat.not_lt_zero _ hr
  | cons row rows ih =>
    rw [List.length_cons] at hlen
    refine (blitRow_inverts row x0 y a).trans (ih (y + 1) _ (by omega)) ?_ fun px py => covers_cons
    rintro px py ⟨c, -, -, hy, -⟩ ⟨r, c', hr, -, -, hy', -⟩
    omega

/-- Settles O34: the rows of a blit invert what the sprite covers, starting with no collision. -/
theorem blitXorsTheSpriteWithWraparound : Obligations.BlitXorsTheSpriteWithWraparound := by
  intro rows x0 y0 d _ hlen
  obtain ⟨hinside, houtside, hcollides⟩ := blitRows_inverts x0 rows y0 (d, false) (by omega)
  exact ⟨hinside, houtside, hcollides.trans (or_iff_right Bool.false_ne_true)⟩

end Sys2Proof.Proofs.Framebuffer
end

section
/-! SUPPORT. What the instructions that set the index register do to the state (44_index_memory.md R271). -/

namespace Sys2Proof.Proofs.IndexMemory

open Sys2Proof Sys2Proof.Machine Sys2Proof.Claims

/-- Settles O38: the meaning writes the zero-extended NNN, whatever it is, and ends as an advance does. -/
theorem loadIndexResult : Obligations.LoadIndexResult :=
  fun nnn s h => Alu.complete_advance h { s with I := absolute nnn }

end Sys2Proof.Proofs.IndexMemory
end

section
/-! SUPPORT. What the instructions that read the timers do to the state (45_timers_keypad.md R306). -/

namespace Sys2Proof.Proofs.TimersKeypad

open Sys2Proof Sys2Proof.Machine Sys2Proof.Claims

/-- Settles O44: the byte written is the timer of the state the meaning began in, which no tick has reached; past 0xFFF
the write is discarded. -/
theorem readDelayTimer : Obligations.ReadDelayTimer :=
  fun x s => ⟨fun h => Alu.complete_advance_setV h x s.dt,
    fun h => Framebuffer.complete_advance_of_gt h (s.setV x s.dt)⟩

end Sys2Proof.Proofs.TimersKeypad
end

section
/-! SUPPORT. What the load port answers and what it writes (70_reset_and_hazards.md R384 to R386). -/

namespace Sys2Proof.Proofs.ResetAndHazards

open Sys2Proof Sys2Proof.Machine Sys2Proof.Claims

/-- A range store writes the memory alone. -/
theorem storeBytes_eq_with_mem : ∀ (bs : List Byte) (s : State) (a : Nat),
    s.storeBytes a bs = { s with mem := (s.storeBytes a bs).mem }
  | [], _, _ => rfl
  | b :: bs, s, a => storeBytes_eq_with_mem bs (s.storeByte a b) (a + 1)

/-- `FONT` is kept by a range store, so the memory after it is read with the font before it. -/
theorem read_mem_storeBytes (bs : List Byte) (s : State) (a a' : Nat) :
    (s.storeBytes a bs).mem.read s.font a' = (s.storeBytes a bs).byte a' := by
  rw [State.byte, State.storeBytes_font]

section

variable {s : State} {prog : List Byte} (hload : s.loaded = false) (hstep : s.stepNo = 0)

include hload hstep

theorem load_of_fits (hfits : 0x200 + prog.length ≤ 4096) :
    s.load prog = .next { s with mem := (s.storeBytes Config.loadBase prog).mem, loaded := true } := by
  rw [State.load, if_neg (by simp [hload, hstep]), if_neg (by rw [Config.maxProgram]; omega), storeBytes_eq_with_mem]

theorem load_of_too_long (hlong : 4096 < 0x200 + prog.length) :
    s.load prog = .refused (.programTooLong prog.length) := by
  rw [State.load, if_neg (by simp [hload, hstep]), if_pos (by rw [Config.maxProgram]; omega)]

end

/-- Settles O59: an accepted load is one range store at 0x200, and a refused one is past the longest program. -/
theorem loadCopiesTheProgram : Obligations.LoadCopiesTheProgram := by
  intro s prog hwf hload hstep
  refine ⟨fun hfits => ⟨_, load_of_fits hload hstep hfits, fun i hi => ?inside, fun a ha => ?outside⟩,
    load_of_too_long hload hstep⟩
  case inside =>
    rw [read_mem_storeBytes]
    exact State.byte_storeBytes_inside prog s Config.loadBase i hi hwf
  case outside =>
    rw [read_mem_storeBytes]
    exact State.byte_storeBytes_outside prog s Config.loadBase ha

end Sys2Proof.Proofs.ResetAndHazards
end

section
/-! SUPPORT. Decode and encode invert each other, and the words that do not decode (30_encoding.md R107, R108). -/

namespace Sys2Proof.Proofs.DecodeEncode

open Sys2Proof Sys2Proof.Machine Sys2Proof.Claims Sys2Proof.Laws

/-- Settles O1: the word of each format holds its fields, which the decoder reads back, constructor by constructor. -/
theorem decodeOfEncodeIsTheInstruction : Obligations.DecodeOfEncodeIsTheInstruction := by
  intro i
  cases i with
  | cls => exact RoundTrip.cls
  | ret => exact RoundTrip.ret
  | jp nnn => exact RoundTrip.jp nnn
  | call nnn => exact RoundTrip.call nnn
  | seVxNn x nn => exact RoundTrip.seVxNn x nn
  | sneVxNn x nn => exact RoundTrip.sneVxNn x nn
  | seVxVy x y => exact RoundTrip.seVxVy x y
  | ldVxNn x nn => exact RoundTrip.ldVxNn x nn
  | addVxNn x nn => exact RoundTrip.addVxNn x nn
  | ldVxVy x y => exact RoundTrip.ldVxVy x y
  | orVxVy x y => exact RoundTrip.orVxVy x y
  | andVxVy x y => exact RoundTrip.andVxVy x y
  | xorVxVy x y => exact RoundTrip.xorVxVy x y
  | addVxVy x y => exact RoundTrip.addVxVy x y
  | subVxVy x y => exact RoundTrip.subVxVy x y
  | shrVx x y => exact RoundTrip.shrVx x y
  | subnVxVy x y => exact RoundTrip.subnVxVy x y
  | shlVx x y => exact RoundTrip.shlVx x y
  | sneVxVy x y => exact RoundTrip.sneVxVy x y
  | ldINnn nnn => exact RoundTrip.ldINnn nnn
  | jpV0 nnn => exact RoundTrip.jpV0 nnn
  | rndVxNn x nn => exact RoundTrip.rndVxNn x nn
  | drw x y n => exact RoundTrip.drw x y n
  | skp x => exact RoundTrip.skp x
  | sknp x => exact RoundTrip.sknp x
  | ldVxDt x => exact RoundTrip.ldVxDt x
  | ldVxK x => exact RoundTrip.ldVxK x
  | ldDtVx x => exact RoundTrip.ldDtVx x
  | ldStVx x => exact RoundTrip.ldStVx x
  | addIVx x => exact RoundTrip.addIVx x
  | ldFVx x => exact RoundTrip.ldFVx x
  | ldBVx x => exact RoundTrip.ldBVx x
  | ldMiVx x => exact RoundTrip.ldMiVx x
  | ldVxMi x => exact RoundTrip.ldVxMi x

/-! ## The fields of a word give it back -/

section

variable {w : Half} {i : Instr}

theorem eq_of_nibble1_fieldNNN {a b : Half} (h1 : nibble1 a = nibble1 b) (hnnn : fieldNNN a = fieldNNN b) : a = b := by
  simp only [← BitVec.toNat_inj, nibble1_toNat, fieldNNN_toNat] at *
  omega

theorem formatA_eq {op : BitVec 4} (h1 : nibble1 w = op) : formatA op (fieldNNN w) = w :=
  eq_of_nibble1_fieldNNN ((nibble1_formatA _ _).trans h1.symm) (fieldNNN_formatA _ _)

/-- A word is its nibbles; X is the second of them. -/
theorem eq_of_fields {a b : Half} (h1 : nibble1 a = nibble1 b) (hx : fieldX a = fieldX b)
    (h3 : nibble3 a = nibble3 b) (h4 : nibble4 a = nibble4 b) : a = b :=
  Encoding.eq_iff_nibbles.2 ⟨h1, BitVec.toFin_inj.1 hx, h3, h4⟩

theorem formatXK_eq {op : BitVec 4} {nn : Byte} (h1 : nibble1 w = op) (hnn : fieldNN w = nn) :
    formatXK op (fieldX w) nn = w := by
  obtain ⟨h3, h4⟩ := Encoding.fieldNN_eq_iff_nibbles.1 ((fieldNN_formatXK op (fieldX w) nn).trans hnn.symm)
  exact eq_of_fields ((nibble1_formatXK _ _ _).trans h1.symm) (fieldX_formatXK _ _ _) h3 h4

theorem formatXYF_eq {op f : BitVec 4} (h1 : nibble1 w = op) (h4 : nibble4 w = f) :
    formatXYF op (fieldX w) (fieldY w) f = w :=
  eq_of_fields ((nibble1_formatXYF _ _ _ _).trans h1.symm) (fieldX_formatXYF _ _ _ _)
    (BitVec.toFin_inj.1 (fieldY_formatXYF _ _ _ _)) ((nibble4_formatXYF _ _ _ _).trans h4.symm)

/-- With n1 = 0 a word is told by NNN. -/
theorem eq_iff_fieldNNN (h1 : (nibble1 w).toNat = 0) {m : Half} (hm : (nibble1 m).toNat = 0) :
    w = m ↔ (fieldNNN w).toNat = (fieldNNN m).toNat :=
  ⟨fun h => by rw [h], fun h =>
    eq_of_nibble1_fieldNNN (BitVec.eq_of_toNat_eq (h1.trans hm.symm)) (BitVec.eq_of_toNat_eq h)⟩

/-! ## A word that decodes is encoded by what it decodes to -/

/-- `w` is the word of the well-formed instruction `i`. -/
def IsWordOf (w : Half) (i : Instr) : Prop := i.wellFormed = true ∧ encode i = w

theorem isWordOf_of_decode0 (h1 : (nibble1 w).toNat = 0) (h : decode0 w = some i) : IsWordOf w i := by
  unfold decode0 at h
  split at h
  case h_1 hn => cases h; exact ⟨rfl, ((eq_iff_fieldNNN (m := 0x00E0) h1 rfl).2 hn).symm⟩
  case h_2 hn => cases h; exact ⟨rfl, ((eq_iff_fieldNNN (m := 0x00EE) h1 rfl).2 hn).symm⟩
  case h_3 => cases h

theorem isWordOf_of_decode8 (h1 : (nibble1 w).toNat = 8) (h : decode8 w = some i) : IsWordOf w i := by
  unfold decode8 at h
  split at h <;> cases h
  all_goals exact ⟨rfl, formatXYF_eq (BitVec.eq_of_toNat_eq h1) (BitVec.eq_of_toNat_eq ‹(nibble4 w).toNat = _›)⟩

theorem isWordOf_of_decodeE (h1 : (nibble1 w).toNat = 0xE) (h : decodeE w = some i) : IsWordOf w i := by
  unfold decodeE at h
  split at h <;> cases h
  all_goals exact ⟨rfl, formatXK_eq (BitVec.eq_of_toNat_eq h1) (BitVec.eq_of_toNat_eq ‹(fieldNN w).toNat = _›)⟩

theorem isWordOf_of_decodeF (h1 : (nibble1 w).toNat = 0xF) (h : decodeF w = some i) : IsWordOf w i := by
  unfold decodeF at h
  split at h <;> cases h
  all_goals exact ⟨rfl, formatXK_eq (BitVec.eq_of_toNat_eq h1) (BitVec.eq_of_toNat_eq ‹(fieldNN w).toNat = _›)⟩

theorem isWordOf_of_decodeWord (h : decodeWord w = some i) : IsWordOf w i := by
  unfold decodeWord at h
  split at h
  case h_1 h1 => exact isWordOf_of_decode0 h1 h
  case h_9 h1 => exact isWordOf_of_decode8 h1 h
  case h_15 h1 => exact isWordOf_of_decodeE h1 h
  case h_16 h1 => exact isWordOf_of_decodeF h1 h
  case h_17 => cases h
  case h_2 h1 | h_3 h1 | h_11 h1 | h_12 h1 => cases h; exact ⟨rfl, formatA_eq (BitVec.eq_of_toNat_eq h1)⟩
  case h_4 h1 | h_5 h1 | h_7 h1 | h_8 h1 | h_13 h1 =>
    cases h
    exact ⟨rfl, formatXK_eq (BitVec.eq_of_toNat_eq h1) rfl⟩
  case h_6 h1 | h_10 h1 =>
    split at h
    case isTrue h4 => cases h; exact ⟨rfl, formatXYF_eq (BitVec.eq_of_toNat_eq h1) h4⟩
    case isFalse => cases h
  case h_14 h1 =>
    cases h
    exact ⟨decide_eq_true (nibble4 w).isLt,
      formatXYF_eq (BitVec.eq_of_toNat_eq h1) ((BitVec.ofNat_toNat 4 _).trans (BitVec.setWidth_eq _)).symm⟩

end

/-- Settles O2: by the decoder's cases; what it tests and the fields it reads are all the bits of the word. -/
theorem encodeOfDecodeIsTheWord : Obligations.EncodeOfDecodeIsTheWord := fun _ _ => isWordOf_of_decodeWord

/-! ## The words that do not decode -/

section

variable {w : Half}

theorem decode0_eq_none_iff (h1 : (nibble1 w).toNat = 0) : decode0 w = none ↔ w ≠ 0x00E0 ∧ w ≠ 0x00EE := by
  rw [Ne, Ne, eq_iff_fieldNNN h1 rfl, eq_iff_fieldNNN h1 rfl, show (fieldNNN 0x00E0).toNat = 0x0E0 from rfl,
    show (fieldNNN 0x00EE).toNat = 0x0EE from rfl]
  unfold decode0
  split <;> simp_all

theorem decode8_eq_none_iff : decode8 w = none ↔ (nibble4 w).toNat ∈ [0x8, 0x9, 0xA, 0xB, 0xC, 0xD, 0xF] := by
  have hlt := (nibble4 w).isLt
  unfold decode8
  split
  case h_10 =>
    simp only [imp_false, true_iff, List.mem_cons, List.not_mem_nil, or_false] at *
    omega
  all_goals simp [*]

theorem decodeE_eq_none_iff : decodeE w = none ↔ (fieldNN w).toNat ∉ [0x9E, 0xA1] := by
  unfold decodeE
  split <;> simp_all

theorem decodeF_eq_none_iff :
    decodeF w = none ↔ (fieldNN w).toNat ∉ [0x07, 0x0A, 0x15, 0x18, 0x1E, 0x29, 0x33, 0x55, 0x65] := by
  unfold decodeF
  split <;> simp_all

end

/-- Settles O4: by n1; each opcode that has a function field fails on the values its decoder does not list. -/
theorem decodeFailureSpaceIsExact : Obligations.DecodeFailureSpaceIsExact := by
  intro w
  have hlt := (nibble1 w).isLt
  rw [← nibble1_toNat, ← nibble4_toNat, ← fieldNN_toNat]
  unfold decodeWord
  split
  case h_1 hop => simpa [hop] using decode0_eq_none_iff hop
  case h_9 hop => simpa [hop] using decode8_eq_none_iff
  case h_15 hop => simpa [hop] using decodeE_eq_none_iff
  case h_16 hop => simpa [hop] using decodeF_eq_none_iff
  case h_6 hop | h_10 hop => simp [hop, ← BitVec.toNat_inj]
  case h_17 =>
    exfalso
    simp only [imp_false] at *
    omega
  all_goals simp [*]

/-- Settles O6: by running the decoder on the eleven words. -/
theorem wordsOfTheTableDecode : Obligations.WordsOfTheTableDecode := by
  unfold Obligations.WordsOfTheTableDecode
  decide

end Sys2Proof.Proofs.DecodeEncode
end

section
/-! SUPPORT. The fetch, and the step by the mode and by what is fetched (30_encoding.md R101, 40_step.md R133 to
R141). -/

namespace Sys2Proof.Proofs.Cycle

open Sys2Proof Sys2Proof.Machine Sys2Proof.Claims

/-! ## Fetch -/

theorem wordOfBytes_toNat (hi lo : Byte) : (wordOfBytes hi lo).toNat = 256 * hi.toNat + lo.toNat := by
  rw [wordOfBytes, BitVec.toNat_append, ← Nat.shiftLeft_add_eq_or_of_lt lo.isLt, Nat.shiftLeft_eq]
  omega

section

variable {s : State} {w : Half}

theorem fetch_of_le (h : s.pc.toNat ≤ 0xFFE) :
    s.fetch = some (wordOfBytes (s.byte s.pc.toNat) (s.byte (s.pc.toNat + 1))) :=
  if_neg (Nat.not_lt.2 h)

theorem fetch_eq_some_of_toNat (h : s.pc.toNat ≤ 0xFFE)
    (hw : w.toNat = 256 * (s.byte s.pc.toNat).toNat + (s.byte (s.pc.toNat + 1)).toNat) : s.fetch = some w := by
  rw [fetch_of_le h, BitVec.eq_of_toNat_eq ((wordOfBytes_toNat _ _).trans hw.symm)]

end

/-! ## The step -/

/-- The core's step from `s` ends in `u`: by the mode and, where it is running, by what the fetch finds. -/
inductive CoreStepTo (s : State) : State → Prop where
  | faulted {r : Fault} (hmode : s.mode = .faulted r) : CoreStepTo s { s with result := some (.fault r) }
  | wait {x : Reg} {prev : Keys} (hmode : s.mode = .awaitingKey x prev) : CoreStepTo s (s.waitStep x prev).endStep
  | noFetch (hmode : s.mode = .running) (hfetch : s.fetch = none) :
      CoreStepTo s (s.enterFault (.pcOutOfRange s.pc.toNat))
  | noDecode {w : Half} (hmode : s.mode = .running) (hfetch : s.fetch = some w) (hdecode : decodeWord w = none) :
      CoreStepTo s s.decodeFailure.endStep
  | exec {w : Half} {i : Instr} {t : State} (hmode : s.mode = .running) (hfetch : s.fetch = some w)
      (hdecode : decodeWord w = some i) (hexec : exec i s = .next t) : CoreStepTo s t.endStep

section

variable {s t u : State}

theorem CoreStepTo.step_eq (h : CoreStepTo s u) : step s = .next u.hostTurn := by
  unfold step coreStepThenHost
  suffices hcore : coreStep s = .next u by rw [hcore]
  unfold coreStep
  cases h with
  | faulted hmode => rw [hmode]
  | wait hmode => rw [hmode]
  | noFetch hmode hfetch => rw [hmode]; simp only [runStep, hfetch, State.raise]
  | noDecode hmode hfetch hdecode => rw [hmode]; simp only [runStep, hfetch, hdecode]
  | exec hmode hfetch hdecode hexec => rw [hmode]; simp only [runStep, hfetch, hdecode, hexec]

/-- Every instruction answers a next state. -/
theorem exec_answers (i : Instr) (s : State) : ∃ t, exec i s = .next t := by
  obtain ⟨r, h⟩ | ⟨s', c, h, -⟩ := exec_cases i s <;> exact ⟨_, h⟩

theorem exists_coreStepTo (s : State) : ∃ u, CoreStepTo s u := by
  cases hmode : s.mode with
  | faulted r => exact ⟨_, .faulted hmode⟩
  | awaitingKey x prev => exact ⟨_, .wait hmode⟩
  | running =>
    cases hfetch : s.fetch with
    | none => exact ⟨_, .noFetch hmode hfetch⟩
    | some w =>
      cases hdecode : decodeWord w with
      | none => exact ⟨_, .noDecode hmode hfetch hdecode⟩
      | some i =>
        obtain ⟨t, hexec⟩ := exec_answers i s
        exact ⟨_, .exec hmode hfetch hdecode hexec⟩

/-- What a step can do: the core's step, then the host's turn. -/
theorem coreStepTo_of_step (h : step s = .next t) : ∃ u, CoreStepTo s u ∧ t = u.hostTurn := by
  obtain ⟨u, hu⟩ := exists_coreStepTo s
  cases hu.step_eq.symm.trans h
  exact ⟨u, hu, rfl⟩

@[simp] theorem endStep_mode (s : State) : s.endStep.mode = s.mode := by
  obtain ⟨r, -, h⟩ | ⟨-, h⟩ := s.endStep_cases <;> rw [h]
  rfl

@[simp] theorem endStep_pc (s : State) : s.endStep.pc = s.pc := by
  obtain ⟨r, -, h⟩ | ⟨-, h⟩ := s.endStep_cases <;> rw [h]
  rfl

theorem endStep_of_running (h : s.mode = .running) : s.endStep = s.tick :=
  State.endStep_of_not_faulted (by simp [h])

theorem endStep_of_awaiting {x : Reg} {prev : Keys} (h : s.mode = .awaitingKey x prev) : s.endStep = s.tick :=
  State.endStep_of_not_faulted (by simp [h])

end

/-- Settles O7: fetch concatenates the two bytes; where it finds none the step faults. -/
theorem fetchReadsBigEndianOrFaults : Obligations.FetchReadsBigEndianOrFaults :=
  ⟨fun _ h => ⟨_, fetch_of_le h, wordOfBytes_toNat _ _⟩,
    fun s hmode h => (CoreStepTo.noFetch hmode ((ControlFlow.fetch_eq_none_iff s).2 h)).step_eq⟩

/-- Settles O8: the end of the step ticks unless the instruction faulted. -/
theorem stepRunsTheDecodedInstruction : Obligations.StepRunsTheDecodedInstruction := by
  intro s t w i hmode hpc hw hdecode hexec
  have hstep := (CoreStepTo.exec hmode (fetch_eq_some_of_toNat hpc hw) hdecode hexec).step_eq
  exact ⟨fun h => by rw [hstep, State.endStep_of_not_faulted h], fun r h => by rw [hstep, State.endStep_of_faulted h]⟩

theorem ofNat_pc_add_two (pc : Half) : BitVec.ofNat 16 (pc.toNat + 2) = pc + 2 := by
  simp [BitVec.ofNat_add]

/-- Settles O9: a decode failure ends the step two bytes on, which passes 0xFFF at 0xFFE alone. -/
theorem decodeFailureAdvancesAndTicks : Obligations.DecodeFailureAdvancesAndTicks := by
  intro s w hmode hpc hw hdecode
  have hstep := (CoreStepTo.noDecode hmode (fetch_eq_some_of_toNat hpc hw) hdecode).step_eq
  unfold State.decodeFailure at hstep
  constructor
  · intro hle
    rw [State.finish_of_le _ (by omega), ofNat_pc_add_two, endStep_of_running (by exact hmode)] at hstep
    exact hstep
  · intro h
    rw [State.finish_of_gt _ (by omega), State.endStep_of_faulted rfl, h] at hstep
    exact hstep

/-- Settles O10: in mode `faulted` the core's step writes its result alone. -/
theorem faultedStepChangesNothing : Obligations.FaultedStepChangesNothing :=
  fun _ _ hmode => (CoreStepTo.faulted hmode).step_eq

/-- Settles O11: a fault is taken out of the state the instruction began in, by its own check or by that of the new pc;
what an instruction writes itself never has mode `faulted`. -/
theorem everyInstructionAnswersAndFaultsPrecisely : Obligations.EveryInstructionAnswersAndFaultsPrecisely := by
  refine ⟨fun i s hrunning => ?_, fun s => ?_⟩
  · have hfault : ∀ q r, (s.enterFault q).mode = .faulted r → s.enterFault q = faultedWith s r := by
      rintro q r ⟨⟩
      rfl
    obtain ⟨q, he⟩ | ⟨s', c, he, -, hmode⟩ := exec_cases i s
    · exact ⟨_, he, hfault q⟩
    · obtain ⟨-, hf⟩ | ⟨-, hf⟩ := State.finish_cases s s' (c.target s.pc.toNat) .ok <;> rw [hf] at he
      · refine ⟨_, he, fun r (hr : s'.mode = .faulted r) => ?_⟩
        obtain hmode | ⟨x, -, -, hmode, -⟩ := hmode <;> simp [hmode, hrunning] at hr
      · exact ⟨_, he, hfault _⟩
  · obtain ⟨u, hu⟩ := exists_coreStepTo s
    exact ⟨_, hu.step_eq⟩

end Sys2Proof.Proofs.Cycle
end

section
/-! SUPPORT. The invariant of the reachable states: reset meets it, steps and host actions keep it (10_state.md
R46). -/

namespace Sys2Proof.Proofs.Invariant

open Sys2Proof Sys2Proof.Machine Sys2Proof.Claims Sys2Proof.Proofs.Cycle

/-! ## The invariant between the core's step and the host's turn -/

/-- The invariant without the clause on the first step, which the core's step breaks until the host's turn counts it. -/
structure InBounds (s : State) : Prop where
  pcInMemory : s.pc.toNat ≤ 0xFFF
  indexInMemory : s.I.toNat ≤ 0xFFF
  canonical : s.mem.wf s.font = true
  inPlace : cellsInPlace s.mem
  waiting : ∀ x prev, s.mode = .awaitingKey x prev → s.fetch = some (encode (.ldVxK x))

section

variable {s s' t : State}

theorem inBounds_of_inv (h : s.Inv) : InBounds s :=
  ⟨h.pcInMemory, h.indexInMemory, h.canonical, h.inPlace, h.waiting⟩

/-- The clauses speak of the pc, I, memory, `FONT` and what is fetched while a key is awaited. -/
theorem InBounds.congr (h : InBounds s) (hpc : t.pc = s.pc) (hI : t.I = s.I) (hmem : t.mem = s.mem)
    (hfont : t.font = s.font)
    (hwait : ∀ x prev, t.mode = .awaitingKey x prev → s.fetch = some (encode (.ldVxK x))) : InBounds t where
  pcInMemory := hpc ▸ h.pcInMemory
  indexInMemory := hI ▸ h.indexInMemory
  canonical := by rw [hmem, hfont]; exact h.canonical
  inPlace := hmem ▸ h.inPlace
  waiting x prev hmode := (State.fetch_congr hpc hmem hfont).trans (hwait x prev hmode)

/-- The host's turn counts the step, so no state after it is before the first step. -/
theorem InBounds.inv_hostTurn (h : InBounds s) : s.hostTurn.Inv :=
  have ht : InBounds s.hostTurn := h.congr rfl rfl rfl rfl h.waiting
  ⟨ht.pcInMemory, ht.indexInMemory, ht.canonical, ht.inPlace, ht.waiting,
    fun hstep => absurd hstep (Nat.succ_ne_zero _)⟩

theorem InBounds.endStep (h : InBounds s) : InBounds s.endStep := by
  obtain ⟨r, -, he⟩ | ⟨-, he⟩ := s.endStep_cases <;> rw [he]
  · exact h
  · exact h.congr rfl rfl rfl rfl h.waiting

theorem InBounds.enterFault (h : InBounds s) (r : Fault) : InBounds (s.enterFault r) :=
  h.congr rfl rfl rfl rfl nofun

theorem wf_of_writes (h : Writes s s') (hs : s.mem.wf s.font = true) : s'.mem.wf s'.font = true := by
  rw [h.font]
  exact h.canonical hs

theorem cellsInPlace_of_writes (h : Writes s s') (hs : cellsInPlace s.mem) : cellsInPlace s'.mem :=
  fun c hc => (h.cells c hc).elim (hs c) id

theorem toNat_ofNat_le {a : Nat} (h : a ≤ 0xFFF) : (BitVec.ofNat 16 a).toNat ≤ 0xFFF :=
  (BitVec.toNat_ofNat a 16).trans_le ((Nat.mod_le _ _).trans h)

/-- The end of a step keeps the bounds, when a wait that it enters is that of an FX0A at the pc where it stays. -/
theorem InBounds.finish {npc : Nat} {res : StepResult} (h : InBounds s) (hwrites : Writes s s')
    (hwait : ∀ x prev, s'.mode = .awaitingKey x prev →
      npc = s.pc.toNat ∧ s'.mem = s.mem ∧ s.fetch = some (encode (.ldVxK x))) :
    InBounds (s.finish s' npc res) := by
  obtain ⟨hle, he⟩ | ⟨-, he⟩ := State.finish_cases s s' npc res <;> rw [he]
  · exact {
      pcInMemory := toNat_ofNat_le hle
      indexInMemory := hwrites.index h.indexInMemory
      canonical := wf_of_writes (s' := s') hwrites h.canonical
      inPlace := cellsInPlace_of_writes (s' := s') hwrites h.inPlace
      waiting := fun x prev hmode => by
        obtain ⟨hpc, hmem, hfetch⟩ := hwait x prev hmode
        rw [← hfetch]
        exact State.fetch_congr (by simp [hpc]) hmem hwrites.font }
  · exact h.enterFault _

theorem InBounds.decodeFailure (h : InBounds s) (hmode : s.mode = .running) : InBounds s.decodeFailure :=
  h.finish (Writes.plain s.V s.stack s.sp s.dt s.st s.disp) (by simp [hmode])

theorem InBounds.waitStep {x : Reg} {prev : Keys} (h : InBounds s) (hmode : s.mode = .awaitingKey x prev) :
    InBounds (s.waitStep x prev) := by
  have hfetch := h.waiting x prev hmode
  obtain ⟨-, he⟩ | ⟨hpc, k, -, he⟩ | ⟨-, -, he⟩ := State.waitStep_cases s x prev <;> rw [he]
  · refine h.congr rfl rfl rfl rfl ?_
    rintro _ _ ⟨⟩
    exact hfetch
  · exact ⟨toNat_ofNat_le hpc, h.indexInMemory, h.canonical, h.inPlace, nofun⟩
  · exact h.enterFault _

/-- A running step enters the wait by FX0A alone, whose word is the one that was fetched. -/
theorem InBounds.exec {w : Half} {i : Instr} (h : InBounds s) (hmode : s.mode = .running) (hfetch : s.fetch = some w)
    (hdecode : decodeWord w = some i) (hexec : exec i s = .next t) : InBounds t := by
  obtain ⟨r, he⟩ | ⟨s', c, he, hwrites, hmode'⟩ := exec_cases i s <;> cases he.symm.trans hexec
  · exact h.enterFault r
  · refine h.finish hwrites fun x prev hwait => ?_
    obtain hsame | ⟨y, rfl, rfl, hawait, hmem⟩ := hmode'
    · rw [hsame, hmode] at hwait
      cases hwait
    · cases hawait.symm.trans hwait
      obtain ⟨-, hword⟩ := DecodeEncode.isWordOf_of_decodeWord hdecode
      exact ⟨rfl, hmem, hfetch.trans (congrArg some hword.symm)⟩

theorem InBounds.coreStep {u : State} (h : InBounds s) (hstep : CoreStepTo s u) : InBounds u := by
  cases hstep with
  | faulted hmode => exact h.congr rfl rfl rfl rfl h.waiting
  | wait hmode => exact (h.waitStep hmode).endStep
  | noFetch => exact h.enterFault _
  | noDecode hmode => exact (h.decodeFailure hmode).endStep
  | exec hmode hfetch hdecode hexec => exact (h.exec hmode hfetch hdecode hexec).endStep

end

/-- Settles O14: the core's step keeps the bounds by its cases, and the host's turn restores the clause on the first
step. -/
theorem stepKeepsTheInvariant : Obligations.StepKeepsTheInvariant := by
  intro s t h hstep
  obtain ⟨u, hu, rfl⟩ := coreStepTo_of_step hstep
  exact ((inBounds_of_inv h).coreStep hu).inv_hostTurn

/-! ## Reset and the host's actions -/

theorem resetPort_inv (t0 : Nat) (font : Font) (dz : DrawZeroHeight) : (State.resetPort t0 font dz).Inv where
  pcInMemory := show (0x200 : Half).toNat ≤ 0xFFF by decide
  indexInMemory := Nat.zero_le _
  canonical := rfl
  inPlace := nofun
  waiting := nofun
  fresh _ := rfl

/-- Settles O15: `State.reset` is the reset port at the free values. -/
theorem resetMeetsTheInvariant : Obligations.ResetMeetsTheInvariant :=
  ⟨resetPort_inv, resetPort_inv _ _ _⟩

/-- An accepted load comes before the first step and is one range store within memory. -/
theorem load_eq_next {s t : State} {prog : List Byte} (h : s.load prog = .next t) :
    s.stepNo = 0 ∧ prog.length ≤ Config.maxProgram ∧ t = { s.storeBytes Config.loadBase prog with loaded := true } := by
  unfold State.load at h
  split_ifs at h with hlate hlong
  obtain ⟨-, hstep⟩ := not_or.1 hlate
  cases h
  exact ⟨not_not.1 hstep, Nat.not_lt.1 hlong, rfl⟩

theorem inv_load {s t : State} {prog : List Byte} (h : s.Inv) (hload : s.load prog = .next t) : t.Inv := by
  obtain ⟨hstep, hlength, rfl⟩ := load_eq_next hload
  have hrunning : (s.storeBytes Config.loadBase prog).mode = .running :=
    (State.storeBytes_mode prog s _).trans (h.fresh hstep)
  rw [Config.maxProgram] at hlength
  have hwrites : Writes s (s.storeBytes Config.loadBase prog) := .store _ _ (.inr (by rw [Config.loadBase]; omega))
  exact {
    pcInMemory := by simpa using h.pcInMemory
    indexInMemory := hwrites.index h.indexInMemory
    canonical := wf_of_writes (s' := s.storeBytes _ prog) hwrites h.canonical
    inPlace := cellsInPlace_of_writes (s' := s.storeBytes _ prog) hwrites h.inPlace
    waiting := fun x prev hmode => by cases hrunning.symm.trans hmode
    fresh := fun _ => hrunning }

theorem inv_setKey {s t : State} {k : Nat} {p : Bool} (h : s.Inv) (hset : s.setKey k p = .next t) : t.Inv := by
  unfold State.setKey at hset
  split_ifs at hset
  cases hset
  exact ⟨h.pcInMemory, h.indexInMemory, h.canonical, h.inPlace, h.waiting, h.fresh⟩

/-- Settles O16: by the action; the mode at a load is `running`, since no step was taken. -/
theorem hostActionsKeepTheInvariant : Obligations.HostActionsKeepTheInvariant := by
  intro a s t h hact
  cases a with
  | reset t0 font dz => cases hact; exact resetPort_inv t0 font dz
  | load prog => exact inv_load h hact
  | setKey k p => exact inv_setKey h hact

theorem inv_of_reachable {s : State} (h : Reachable s) : s.Inv := by
  induction h with
  | reset t0 font dz => exact resetPort_inv t0 font dz
  | step _ hstep ih => exact stepKeepsTheInvariant _ _ ih hstep
  | host a _ hact ih => exact hostActionsKeepTheInvariant a _ _ ih hact

/-- With no cell listed in the font region its bytes are those of `FONT`. -/
theorem byte_font {s : State} (h : cellsInPlace s.mem) (a : Fin 80) : s.byte a.val = s.font[a.val] := by
  rw [State.byte, Memory.read_unlisted fun c hc => by have := (h c hc).1; omega, resetContents, dif_pos a.isLt]

/-- Settles O17: the invariant holds along a session, and sp is bounded by its type. -/
theorem reachableStatesStayInBounds : Obligations.ReachableStatesStayInBounds := by
  intro s hs
  have h := inv_of_reachable hs
  exact ⟨h.pcInMemory, h.indexInMemory, Nat.le_of_lt_succ s.sp.isLt, byte_font h.inPlace, h.waiting⟩

end Sys2Proof.Proofs.Invariant
end

section
/-! SUPPORT. Every instruction is its own checks, a write, and the end of a step: what each writes, said once
(40_step.md R135, R136, 60_exceptions.md R343, R346). -/

namespace Sys2Proof.Proofs.Meaning

open Sys2Proof Sys2Proof.Machine Sys2Proof.Claims

/-! ## What an instruction writes -/

/-- The state an instruction hands to the end of its step when its own checks pass: all it writes but the pc and the
result. Tied to the meanings by `exec_of_ownFault_eq_none`. -/
def written (s : State) : Instr → State
  | .cls => { s with disp := Display.clear }
  | .ret => { s with sp := ⟨s.sp.val - 1, by omega⟩ }
  | .call _ => { s with
      stack := s.stack.setIfInBounds s.sp.val (s.pc + 2), sp := ⟨min (s.sp.val + 1) 16, by omega⟩ }
  | .ldVxNn x nn => s.setV x nn
  | .addVxNn x nn => s.setV x (add8 (s.v x) nn)
  | .ldVxVy x y => s.setV x (s.v y)
  | .orVxVy x y => s.setResultFlag x (s.v x ||| s.v y) 0
  | .andVxVy x y => s.setResultFlag x (s.v x &&& s.v y) 0
  | .xorVxVy x y => s.setResultFlag x (s.v x ^^^ s.v y) 0
  | .addVxVy x y => s.setResultFlag x (add8 (s.v x) (s.v y)) (carry (s.v x) (s.v y))
  | .subVxVy x y => s.setResultFlag x (sub8 (s.v x) (s.v y)) (notBorrow (s.v x) (s.v y))
  | .shrVx x _ => s.setResultFlag x (shiftRight1 (s.v x)) (lowBit (s.v x))
  | .subnVxVy x y => s.setResultFlag x (sub8 (s.v y) (s.v x)) (notBorrow (s.v y) (s.v x))
  | .shlVx x _ => s.setResultFlag x (shiftLeft1 (s.v x)) (highBit (s.v x))
  | .rndVxNn x nn => s.setV x (s.rnd &&& nn)
  | .ldVxDt x => s.setV x s.dt
  | .ldINnn nnn => { s with I := absolute nnn }
  | .addIVx x => { s with I := BitVec.ofNat 16 (s.indexPlus x) }
  | .ldFVx x => { s with I := glyphAddress (s.v x) }
  | .drw x y n => { s with
      V := (if n = 0 then s.setVF 0 else s.draw x y n).V, disp := (if n = 0 then s else s.draw x y n).disp }
  | .ldVxK x => { s with mode := .awaitingKey x s.keys }
  | .ldDtVx x => { s with dt := s.v x }
  | .ldStVx x => { s with st := s.v x }
  | .ldBVx x => { s with mem := (s.storeBytes s.indexBase (decimalDigits (s.v x))).mem }
  | .ldMiVx x => { s with mem := (s.storeBytes s.indexBase (s.regsTo x)).mem }
  | .ldVxMi x => s.loadRegs x s.indexBase
  | .jp _ | .jpV0 _ | .seVxNn _ _ | .sneVxNn _ _ | .seVxVy _ _ | .sneVxVy _ _ | .skp _ | .sknp _ => s

/-! ## The range checks -/

section

variable {s : State} {n : Nat}

theorem rangeFault_readFault_eq (hn : 0 < n) : rangeFault readFault s.indexBase n = readRangeFault s n := by
  unfold readRangeFault State.indexBase
  split_ifs with hout
  · refine rangeFault_eq_some.2 ⟨max s.I.toNat 0x1000 - s.I.toNat, by omega, ?_, fun j hj => ?_⟩
    · rw [Nat.add_sub_cancel' (Nat.le_max_left _ _)]
      exact if_pos (by omega)
    · exact readFault_eq_none.2 (by omega)
  · exact rangeFault_read_eq_none.2 (.inr (Nat.not_lt.1 hout))

theorem rangeFault_writeFault_eq (hn : 0 < n) : rangeFault writeFault s.indexBase n = writeRangeFault s n := by
  unfold writeRangeFault State.indexBase
  split_ifs with hfont hout
  · refine rangeFault_eq_some.2 ⟨0, hn, ?_, nofun⟩
    rw [Nat.add_zero, writeFault, if_neg (by omega), if_pos hfont]
  · refine rangeFault_eq_some.2 ⟨max s.I.toNat 0x1000 - s.I.toNat, by omega, ?_, fun j hj => ?_⟩
    · rw [Nat.add_sub_cancel' (Nat.le_max_left _ _)]
      exact if_pos (by omega)
    · exact writeFault_eq_none.2 (by omega)
  · exact rangeFault_write_eq_none.2 (.inr ⟨Nat.not_le.1 hfont, Nat.not_lt.1 hout⟩)

theorem readRangeFault_eq_none : readRangeFault s n = none ↔ s.I.toNat + n ≤ 0x1000 := by
  unfold readRangeFault
  split_ifs <;> simp <;> omega

theorem writeRangeFault_eq_none : writeRangeFault s n = none ↔ 0x04F < s.I.toNat ∧ s.I.toNat + n ≤ 0x1000 := by
  unfold writeRangeFault
  split_ifs <;> simp <;> omega

end

/-! ## The meanings whose own checks pass -/

section

variable {s : State} {x y : Reg} {n : Nat}

/-- A return is a pop and a transfer to the popped entry. -/
theorem exec_ret (h : 0 < s.sp.val) : exec .ret s =
    s.complete { s with sp := ⟨s.sp.val - 1, by omega⟩ } (.transfer s.stack[s.sp.val - 1].toNat) := by
  simp only [exec, execRet, State.pop_eq_some (Nat.ne_of_gt h)]

theorem exec_call (nnn : Addr12) (h : s.sp.val < 16) : exec (.call nnn) s =
    s.complete { s with stack := s.stack.set s.sp.val (s.pc + 2), sp := ⟨s.sp.val + 1, by omega⟩ }
      (.transfer (absolute nnn).toNat) := by
  simp only [exec, execCall, State.push_eq_some _ h]

theorem keyIndex_of_lt {v : Byte} (h : v.toNat < 16) : keyIndex v = some ⟨v.toNat, h⟩ := dif_pos h

theorem keyIndex_of_ge {v : Byte} (h : 0xF < v.toNat) : keyIndex v = none := dif_neg (Nat.not_lt.2 h)

theorem exec_skp (h : (s.v x).toNat < 16) : exec (.skp x) s = s.complete s (skipIf s.keys[(s.v x).toNat]) := by
  simp only [exec, execSkp, keyIndex_of_lt h]

theorem exec_sknp (h : (s.v x).toNat < 16) : exec (.sknp x) s = s.complete s (skipIf (!s.keys[(s.v x).toNat])) := by
  simp only [exec, execSknp, keyIndex_of_lt h]

theorem eq_empty_of_ne_fault {z : DrawZeroHeight} (h : z ≠ .fault) : z = .empty := by
  cases z with
  | fault => exact absurd rfl h
  | empty => rfl

theorem exec_drw_zero (h : s.drawZeroHeight = .empty) : exec (.drw x y 0) s = s.complete (s.setVF 0) .advance := by
  simp only [exec, execDrw, if_true, h]

theorem exec_drw (hn : n ≠ 0) (h : readRangeFault s n = none) :
    exec (.drw x y n) s = s.complete (s.draw x y n) .advance := by
  simp only [exec, execDrw, if_neg hn, rangeFault_readFault_eq (Nat.pos_of_ne_zero hn), h]

theorem exec_ldBVx (h : writeRangeFault s 3 = none) :
    exec (.ldBVx x) s = s.complete (s.storeBytes s.indexBase (decimalDigits (s.v x))) .advance := by
  simp only [exec, execLdBVx, rangeFault_writeFault_eq (Nat.succ_pos 2), h]

theorem exec_ldMiVx (h : writeRangeFault s (x.val + 1) = none) :
    exec (.ldMiVx x) s = s.complete (s.storeBytes s.indexBase (s.regsTo x)) .advance := by
  simp only [exec, execLdMiVx, rangeFault_writeFault_eq (Nat.succ_pos x.val), h]

theorem exec_ldVxMi (h : readRangeFault s (x.val + 1) = none) :
    exec (.ldVxMi x) s = s.complete (s.loadRegs x s.indexBase) .advance := by
  simp only [exec, execLdVxMi, rangeFault_readFault_eq (Nat.succ_pos x.val), h]

end

/-! ## Every meaning -/

section

variable {s t : State} {i : Instr} {r : Fault}

/-- An instruction whose own check fails takes that fault out of the state it began in. -/
theorem exec_of_ownFault (h : ownFault s i = some r) : exec i s = .next (faultedWith s r) := by
  cases i with
  | ret =>
    obtain ⟨hsp, rfl⟩ : s.sp.val = 0 ∧ .stackUnderflow = r := by simpa [ownFault] using h
    simp only [exec, execRet, State.pop_eq_none hsp]
    rfl
  | call nnn =>
    obtain ⟨hsp, rfl⟩ : s.sp.val = 16 ∧ .stackOverflow = r := by simpa [ownFault] using h
    simp only [exec, execCall, State.push_eq_none _ hsp]
    rfl
  | drw x y n =>
    dsimp only [ownFault] at h
    dsimp only [exec, execDrw]
    split_ifs at h ⊢ with hn hz
    · cases h
      rw [hz]
      rfl
    · rw [rangeFault_readFault_eq (Nat.pos_of_ne_zero hn), h]
      rfl
  | addIVx x =>
    obtain ⟨hout, rfl⟩ : 0xFFF < s.indexPlus x ∧ .indexOutOfRange (s.indexPlus x) = r := by
      simpa [ownFault, State.indexPlus, State.v] using h
    exact if_pos hout
  | skp x =>
    obtain ⟨hout, rfl⟩ : 0xF < (s.v x).toNat ∧ .keyIndexOutOfRange (s.v x) = r := by
      simpa [ownFault, State.v] using h
    simp only [exec, execSkp, keyIndex_of_ge hout]
    rfl
  | sknp x =>
    obtain ⟨hout, rfl⟩ : 0xF < (s.v x).toNat ∧ .keyIndexOutOfRange (s.v x) = r := by
      simpa [ownFault, State.v] using h
    simp only [exec, execSknp, keyIndex_of_ge hout]
    rfl
  | ldBVx x =>
    simp only [exec, execLdBVx, (rangeFault_writeFault_eq (Nat.succ_pos 2)).trans h]
    rfl
  | ldMiVx x =>
    simp only [exec, execLdMiVx, (rangeFault_writeFault_eq (Nat.succ_pos x.val)).trans h]
    rfl
  | ldVxMi x =>
    simp only [exec, execLdVxMi, (rangeFault_readFault_eq (Nat.succ_pos x.val)).trans h]
    rfl
  | _ => cases h

theorem complete_of_target {s' : State} {c : NextPc} {npc : Nat} (h : c.target s.pc.toNat = npc) :
    s.complete s' c = .next (s.finish s' npc .ok) := by
  rw [complete_eq, h]

/-- An instruction whose own checks pass ends its step with what it wrote, at the new pc of the table. -/
theorem exec_of_ownFault_eq_none (h : ownFault s i = none) :
    exec i s = .next (s.finish (written s i) (newPc s i) .ok) := by
  cases i with
  | jp nnn => exact complete_of_target (Encoding.absolute_toNat nnn)
  | seVxNn | sneVxNn | seVxVy | sneVxVy => exact complete_of_target (by simp [Step.target_skipIf, newPc])
  | ret =>
    have hsp : 0 < s.sp.val := Nat.pos_of_ne_zero (by simpa [ownFault] using h)
    rw [exec_ret hsp]
    exact complete_of_target (by simp [NextPc.target, newPc, show s.sp.val - 1 < 16 by omega])
  | call nnn =>
    have hne : s.sp.val ≠ 16 := by simpa [ownFault] using h
    have hsp : s.sp.val < 16 := by omega
    have hwritten : written s (.call nnn) =
        { s with stack := s.stack.set s.sp.val (s.pc + 2), sp := ⟨s.sp.val + 1, by omega⟩ } := by
      simp [written, Vector.setIfInBounds, Array.setIfInBounds, Vector.set, hsp, Nat.succ_le_of_lt hsp]
    rw [exec_call nnn hsp, hwritten]
    exact complete_of_target (Encoding.absolute_toNat nnn)
  | drw x y n =>
    dsimp only [ownFault, written] at h ⊢
    split_ifs at h ⊢ with hn hz
    · subst hn
      exact exec_drw_zero (eq_empty_of_ne_fault hz)
    · exact exec_drw hn h
  | addIVx x => exact if_neg (by simpa [ownFault, State.indexPlus, State.v] using h)
  | skp x =>
    have hkey : (s.v x).toNat < 16 := Nat.lt_succ_of_le (by simpa [ownFault, State.v] using h)
    rw [exec_skp hkey]
    exact complete_of_target (by simp [Step.target_skipIf, newPc, hkey])
  | sknp x =>
    have hkey : (s.v x).toNat < 16 := Nat.lt_succ_of_le (by simpa [ownFault, State.v] using h)
    rw [exec_sknp hkey]
    exact complete_of_target (by
      cases hpressed : s.keys[(s.v x).toNat] <;> simp [Step.target_skipIf, newPc, hkey, hpressed])
  | ldBVx x =>
    rw [exec_ldBVx h, ResetAndHazards.storeBytes_eq_with_mem]
    rfl
  | ldMiVx x =>
    rw [exec_ldMiVx h, ResetAndHazards.storeBytes_eq_with_mem]
    rfl
  | ldVxMi x => exact exec_ldVxMi h
  | _ => rfl

/-- What an instruction that answers `t` did: it faulted out of `s`, or wrote what it writes, the pc and the result. -/
theorem exec_next_cases (h : exec i s = .next t) :
    (∃ r, t = s.enterFault r) ∨
      (ownFault s i = none ∧ t = { written s i with pc := BitVec.ofNat 16 (newPc s i), result := some .ok }) := by
  cases hown : ownFault s i with
  | some r =>
    cases (exec_of_ownFault hown).symm.trans h
    exact .inl ⟨r, rfl⟩
  | none =>
    cases (exec_of_ownFault_eq_none hown).symm.trans h
    obtain ⟨-, he⟩ | ⟨-, he⟩ := State.finish_cases s (written s i) (newPc s i) .ok
    · exact .inr ⟨rfl, he⟩
    · exact .inl ⟨_, he⟩

/-! ## What an instruction writes to each unit -/

theorem written_v (q : Reg) (h : writesReg q i = false) : (written s i).v q = s.v q := by
  cases i with
  | ldVxNn x | addVxNn x | ldVxVy x | rndVxNn x | ldVxDt x =>
    have hne : q ≠ x := by simpa [writesReg] using h
    exact (State.v_setV _ _ _ _).trans (if_neg hne)
  | orVxVy x | andVxVy x | xorVxVy x | addVxVy x | subVxVy x | shrVx x | subnVxVy x | shlVx x =>
    obtain ⟨hne, hflag⟩ : q ≠ x ∧ q ≠ 15 := by simpa [writesReg] using h
    exact (State.v_setResultFlag _ _ _ _ _).trans ((if_neg hflag).trans (if_neg hne))
  | drw x y n =>
    have hflag : q ≠ 15 := by simpa [writesReg] using h
    have hkept : (if n = 0 then s.setVF 0 else s.draw x y n).v q = s.v q := by
      split_ifs <;> exact (State.v_setV _ _ _ _).trans (if_neg hflag)
    exact hkept
  | ldVxMi x =>
    have habove : ¬ q.val ≤ x.val := by simpa [writesReg] using h
    exact (State.v_loadRegs _ _ _ _).trans (if_neg habove)
  | _ => rfl

theorem written_mem (h : storedRange s i = none) : (written s i).mem = s.mem := by
  cases i with
  | ldBVx | ldMiVx => cases h
  | ldVxMi x => exact State.loadRegs_mem s x _
  | _ => rfl

theorem written_mem_of_storedRange {b n : Nat} (h : storedRange s i = some (b, n)) :
    ∃ bs : List Byte, bs.length = n ∧ (written s i).mem = (s.storeBytes b bs).mem := by
  cases i with
  | ldBVx x => cases h; exact ⟨_, rfl, rfl⟩
  | ldMiVx x => cases h; exact ⟨_, State.regsTo_length s x, rfl⟩
  | _ => cases h

/-- A range that passes its check lies above the font region. -/
theorem storedRange_above_font {b n : Nat} (hown : ownFault s i = none) (h : storedRange s i = some (b, n)) :
    0x04F < b := by
  cases i with
  | ldBVx | ldMiVx => cases h; exact (writeRangeFault_eq_none.1 hown).1
  | _ => cases h

theorem written_font : (written s i).font = s.font := by
  cases i with
  | ldVxMi x => exact State.loadRegs_font s x _
  | _ => rfl

theorem written_mode :
    (written s i).mode = s.mode ∨ ∃ x, i = .ldVxK x ∧ (written s i).mode = .awaitingKey x s.keys := by
  cases i with
  | ldVxK x => exact .inr ⟨x, rfl, rfl⟩
  | ldVxMi x => exact .inl (State.loadRegs_mode s x _)
  | _ => exact .inl rfl

theorem written_I :
    (written s i).I = s.I ∨ (∃ nnn, i = .ldINnn nnn) ∨ (∃ x, i = .addIVx x) ∨ ∃ x, i = .ldFVx x := by
  cases i with
  | ldINnn nnn => exact .inr (.inl ⟨nnn, rfl⟩)
  | addIVx x => exact .inr (.inr (.inl ⟨x, rfl⟩))
  | ldFVx x => exact .inr (.inr (.inr ⟨x, rfl⟩))
  | ldVxMi x => exact .inl (State.loadRegs_I s x _)
  | _ => exact .inl rfl

theorem written_stack : (written s i).stack = s.stack ∨ ∃ nnn, i = .call nnn := by
  cases i with
  | call nnn => exact .inr ⟨nnn, rfl⟩
  | ldVxMi x => exact .inl (State.loadRegs_stack s x _)
  | _ => exact .inl rfl

theorem written_sp : (written s i).sp = s.sp ∨ (∃ nnn, i = .call nnn) ∨ i = .ret := by
  cases i with
  | call nnn => exact .inr (.inl ⟨nnn, rfl⟩)
  | ret => exact .inr (.inr rfl)
  | ldVxMi x => exact .inl (State.loadRegs_sp s x _)
  | _ => exact .inl rfl

theorem written_disp : (written s i).disp = s.disp ∨ i = .cls ∨ ∃ x y n, i = .drw x y n := by
  cases i with
  | cls => exact .inr (.inl rfl)
  | drw x y n => exact .inr (.inr ⟨x, y, n, rfl⟩)
  | ldVxMi x => exact .inl (State.loadRegs_disp s x _)
  | _ => exact .inl rfl

theorem written_dt : (written s i).dt = s.dt ∨ ∃ x, i = .ldDtVx x := by
  cases i with
  | ldDtVx x => exact .inr ⟨x, rfl⟩
  | ldVxMi x => exact .inl (State.loadRegs_dt s x _)
  | _ => exact .inl rfl

theorem written_st : (written s i).st = s.st ∨ ∃ x, i = .ldStVx x := by
  cases i with
  | ldStVx x => exact .inr ⟨x, rfl⟩
  | ldVxMi x => exact .inl (State.loadRegs_st s x _)
  | _ => exact .inl rfl

end

end Sys2Proof.Proofs.Meaning
end

section
/-! SUPPORT. Which faults are raised, and what an instruction and a step leave unchanged (60_exceptions.md R343, R346,
00_scope.md R21). -/

namespace Sys2Proof.Proofs.Frames

open Sys2Proof Sys2Proof.Machine Sys2Proof.Claims Sys2Proof.Proofs.Meaning

/-- Settles O12: the own checks come first; without their fault the instruction ends its step at the new pc of the
table, where that end checks it. -/
theorem faultsAreExactlyTheListedOnes : Obligations.FaultsAreExactlyTheListedOnes := by
  intro i s hrunning
  refine ⟨fun r => exec_of_ownFault, fun hown hgt => ?_, fun hown hle => ?_⟩
  · rw [exec_of_ownFault_eq_none hown, State.finish_of_gt _ hgt]
    rfl
  · refine ⟨_, exec_of_ownFault_eq_none hown, ?_⟩
    rw [State.finish_of_le _ hle]
    refine ⟨rfl, Nat.mod_eq_of_lt (by omega), fun r (hr : (written s i).mode = .faulted r) => ?_⟩
    obtain hmode | ⟨x, -, hmode⟩ := written_mode (s := s) (i := i) <;> simp [hmode, hrunning] at hr

/-! ## Registers and units -/

/-- Settles O52: a fault writes no register, and neither do the pc and the result. -/
theorem onlyDestinationRegistersChange : Obligations.OnlyDestinationRegistersChange := by
  intro i s t q hexec hq
  obtain ⟨r, rfl⟩ | ⟨-, rfl⟩ := exec_next_cases hexec
  · rfl
  · exact written_v q hq

/-- Settles O54: a fault writes none of the units, and each is otherwise written by the instructions named. -/
theorem onlyNamedInstructionsWriteEachUnit : Obligations.OnlyNamedInstructionsWriteEachUnit := by
  intro i s t hexec
  obtain ⟨r, rfl⟩ | ⟨-, rfl⟩ := exec_next_cases hexec
  · exact ⟨absurd rfl, absurd rfl, absurd rfl, absurd rfl, absurd rfl, absurd rfl⟩
  · exact ⟨written_I.resolve_left, written_stack.resolve_left, written_sp.resolve_left, written_disp.resolve_left,
      written_dt.resolve_left, written_st.resolve_left⟩

/-- Settles O55: what an instruction writes keeps all of these, and so does a fault but for the mode. -/
theorem noInstructionWritesKeypadOrPorts : Obligations.NoInstructionWritesKeypadOrPorts := by
  intro i s t hexec
  have hfault : ∀ r, (s.enterFault r).mode ≠ s.mode →
      (∃ q, (s.enterFault r).mode = .faulted q ∧ (s.enterFault r).result = some (.fault q)) ∨
        ∃ x, i = .ldVxK x ∧ (s.enterFault r).mode = .awaitingKey x s.keys :=
    fun r _ => .inl ⟨r, rfl, rfl⟩
  obtain ⟨r, he⟩ | ⟨s', c, he, hw, hmode⟩ := exec_cases i s <;> cases he.symm.trans hexec
  · exact ⟨rfl, rfl, rfl, rfl, rfl, rfl, rfl, rfl, rfl, rfl, hfault r⟩
  · obtain ⟨-, he⟩ | ⟨-, he⟩ := State.finish_cases s s' (c.target s.pc.toNat) .ok <;> rw [he]
    · refine ⟨hw.keys, hw.lastTick, hw.font, hw.drawZeroHeight, hw.now, hw.rnd, hw.keyPick, hw.schedule, hw.stepNo,
        hw.loaded, fun hne => ?_⟩
      obtain hsame | ⟨x, hi, -, hawait, -⟩ := hmode
      · exact absurd hsame hne
      · exact .inr ⟨x, hi, hawait⟩
    · exact ⟨rfl, rfl, rfl, rfl, rfl, rfl, rfl, rfl, rfl, rfl, hfault _⟩

/-! ## Memory -/

section

variable {s t : State} {i : Instr}

/-- Every byte of memory after an instruction is as before or as the instruction wrote it, its own checks passed. -/
theorem byte_of_exec (h : exec i s = .next t) :
    (∀ a, t.byte a = s.byte a) ∨ ownFault s i = none ∧ ∀ a, t.byte a = (written s i).byte a := by
  obtain ⟨r, rfl⟩ | ⟨hown, rfl⟩ := exec_next_cases h
  · exact .inl fun a => State.byte_congr rfl rfl a
  · exact .inr ⟨hown, fun a => State.byte_congr rfl rfl a⟩

theorem byte_written_of_none (h : storedRange s i = none) (a : Nat) : (written s i).byte a = s.byte a :=
  State.byte_congr (written_mem h) written_font a

theorem byte_written_outside {b n a : Nat} (h : storedRange s i = some (b, n)) (ha : a < b ∨ b + n ≤ a) :
    (written s i).byte a = s.byte a := by
  obtain ⟨bs, rfl, hmem⟩ := written_mem_of_storedRange h
  have hfont : (written s i).font = (s.storeBytes b bs).font := written_font.trans (State.storeBytes_font bs s b).symm
  exact (State.byte_congr hmem hfont a).trans (State.byte_storeBytes_outside bs s b ha)

end

/-- Settles O53: a range store writes no byte outside its range, and the other instructions write none. -/
theorem onlyStoredBytesChange : Obligations.OnlyStoredBytesChange := by
  intro i s t hexec
  obtain hsame | ⟨-, hwritten⟩ := byte_of_exec hexec
  · exact ⟨fun _ => hsame, fun _ _ _ a _ => hsame a⟩
  · exact ⟨fun h a => (hwritten a).trans (byte_written_of_none h a),
      fun b n h a ha => (hwritten a).trans (byte_written_outside h ha)⟩

/-! ## The font region and the parameters -/

/-- `t` keeps the parameters and the font region of `s`. -/
structure KeepsFont (s t : State) : Prop where
  font : t.font = s.font
  drawZeroHeight : t.drawZeroHeight = s.drawZeroHeight
  low : ∀ a ≤ 0x04F, t.byte a = s.byte a

section

variable {s t u : State}

theorem keepsFont_of_eq (hmem : t.mem = s.mem) (hfont : t.font = s.font) (hdz : t.drawZeroHeight = s.drawZeroHeight) :
    KeepsFont s t :=
  ⟨hfont, hdz, fun a _ => State.byte_congr hmem hfont a⟩

theorem KeepsFont.trans (h : KeepsFont s t) (h' : KeepsFont t u) : KeepsFont s u :=
  ⟨h'.font.trans h.font, h'.drawZeroHeight.trans h.drawZeroHeight, fun a ha => (h'.low a ha).trans (h.low a ha)⟩

theorem keepsFont_endStep (s : State) : KeepsFont s s.endStep := by
  obtain ⟨r, -, he⟩ | ⟨-, he⟩ := s.endStep_cases <;> rw [he] <;> exact keepsFont_of_eq rfl rfl rfl

theorem keepsFont_decodeFailure (s : State) : KeepsFont s s.decodeFailure := by
  unfold State.decodeFailure
  obtain ⟨-, he⟩ | ⟨-, he⟩ := State.finish_cases s s (s.pc.toNat + 2) .decodeFailure <;> rw [he] <;>
    exact keepsFont_of_eq rfl rfl rfl

theorem keepsFont_waitStep (s : State) (x : Reg) (prev : Keys) : KeepsFont s (s.waitStep x prev) := by
  obtain ⟨-, he⟩ | ⟨-, k, -, he⟩ | ⟨-, -, he⟩ := State.waitStep_cases s x prev <;> rw [he] <;>
    exact keepsFont_of_eq rfl rfl rfl

/-- A store below 0x050 faults before it is made. -/
theorem keepsFont_exec {i : Instr} (h : exec i s = .next t) : KeepsFont s t := by
  obtain ⟨-, -, hfont, hdz, -⟩ := noInstructionWritesKeypadOrPorts i s t h
  refine ⟨hfont, hdz, fun a ha => ?_⟩
  obtain hsame | ⟨hown, hwritten⟩ := byte_of_exec h
  · exact hsame a
  · rw [hwritten]
    cases hrange : storedRange s i with
    | none => exact byte_written_of_none hrange a
    | some range => exact byte_written_outside hrange (.inl (ha.trans_lt (storedRange_above_font hown hrange)))

theorem keepsFont_coreStep (h : Cycle.CoreStepTo s u) : KeepsFont s u := by
  cases h with
  | faulted | noFetch => exact keepsFont_of_eq rfl rfl rfl
  | wait => exact (keepsFont_waitStep s _ _).trans (keepsFont_endStep _)
  | noDecode => exact (keepsFont_decodeFailure s).trans (keepsFont_endStep _)
  | exec _ _ _ hexec => exact (keepsFont_exec hexec).trans (keepsFont_endStep _)

end

/-- Settles O18: along the cases of the core's step, and the host's turn writes no memory. -/
theorem stepNeverWritesTheFont : Obligations.StepNeverWritesTheFont := by
  intro s t hstep
  obtain ⟨u, hu, rfl⟩ := Cycle.coreStepTo_of_step hstep
  obtain ⟨hfont, hdz, hlow⟩ := keepsFont_coreStep hu
  exact ⟨hfont, hdz, hlow⟩

/-! ## The pins -/

/-- `s` with other values at the step's pins. -/
def withPins (s : State) (now : Nat) (rnd : Byte) (pick : Nat) : State :=
  { s with now := now, rnd := rnd, keyPick := pick }

section

variable {s t : State} {i : Instr} {now pick : Nat} {rnd : Byte}

theorem ownFault_withPins : ownFault (withPins s now rnd pick) i = ownFault s i := by cases i <;> rfl

theorem newPc_withPins : newPc (withPins s now rnd pick) i = newPc s i := by cases i <;> rfl

theorem storeBytes_withPins : ∀ (bs : List Byte) (s : State) (a : Nat),
    (withPins s now rnd pick).storeBytes a bs = withPins (s.storeBytes a bs) now rnd pick
  | [], _, _ => rfl
  | b :: bs, s, a => storeBytes_withPins bs (s.storeByte a b) (a + 1)

/-- What an instruction reads of the pins is the random byte of CXNN. -/
theorem written_withPins (h : rnd = s.rnd ∨ ∀ x nn, i ≠ .rndVxNn x nn) :
    written (withPins s now rnd pick) i = withPins (written s i) now rnd pick := by
  cases i with
  | rndVxNn x nn =>
    obtain rfl := h.resolve_right fun hne => hne x nn rfl
    rfl
  | drw x y n => by_cases hn : n = 0 <;> simp only [written, hn, if_true, if_false] <;> rfl
  | ldBVx x => exact congrArg (fun u => { withPins s now rnd pick with mem := u.mem }) (storeBytes_withPins _ s _)
  | ldMiVx x => exact congrArg (fun u => { withPins s now rnd pick with mem := u.mem }) (storeBytes_withPins _ s _)
  | _ => rfl

theorem finish_withPins (s s' : State) (npc : Nat) (res : StepResult) :
    (withPins s now rnd pick).finish (withPins s' now rnd pick) npc res =
      withPins (s.finish s' npc res) now rnd pick := by
  unfold State.finish
  split_ifs <;> rfl

theorem exec_withPins (h : rnd = s.rnd ∨ ∀ x nn, i ≠ .rndVxNn x nn) (hexec : exec i s = .next t) :
    exec i (withPins s now rnd pick) = .next (withPins t now rnd pick) := by
  cases hown : ownFault s i with
  | some r =>
    cases (exec_of_ownFault hown).symm.trans hexec
    exact exec_of_ownFault (ownFault_withPins.trans hown)
  | none =>
    cases (exec_of_ownFault_eq_none hown).symm.trans hexec
    rw [exec_of_ownFault_eq_none (ownFault_withPins.trans hown), newPc_withPins, written_withPins h, finish_withPins]

end

/-- Settles O56: the checks, the new pc and what is written read no pin but the random byte of CXNN, which the first
clause keeps. -/
theorem onlyRandomReadsTheRandomByte : Obligations.OnlyRandomReadsTheRandomByte := by
  intro i s t now rnd pick hexec
  obtain ⟨-, -, -, -, -, hrnd, -⟩ := noInstructionWritesKeypadOrPorts i s t hexec
  constructor
  · have ht : withPins t now s.rnd pick = { t with now := now, keyPick := pick } := by
      rw [← hrnd]
      rfl
    rw [← ht]
    exact exec_withPins (.inl rfl) hexec
  · exact fun hne => exec_withPins (.inr hne) hexec

/-! ## The host's turn -/

theorem writeKeys_append (keys : Keys) (ws ws' : List (KeyIdx × Bool)) :
    writeKeys keys (ws ++ ws') = writeKeys (writeKeys keys ws) ws' :=
  List.foldl_append

/-- A key that is not written keeps its value. -/
theorem writeKeys_of_not_mem {k : KeyIdx} : ∀ {ws : List (KeyIdx × Bool)} {keys : Keys}, (∀ p, (k, p) ∉ ws) →
    (writeKeys keys ws)[k.val] = keys[k.val]
  | [], _, _ => rfl
  | (j, q) :: ws, keys, h => by
    have hne : j.val ≠ k.val := fun he => h q (by simp [Fin.ext he])
    calc (writeKeys keys ((j, q) :: ws))[k.val]
      _ = (keys.set j.val q)[k.val] := writeKeys_of_not_mem fun p hp => h p (List.mem_cons_of_mem _ hp)
      _ = keys[k.val] := Vector.getElem_set_ne _ _ hne

/-- A key holds the last value written to it. -/
theorem writeKeys_of_last {k : KeyIdx} {p : Bool} {keys : Keys} (before : List (KeyIdx × Bool))
    {after : List (KeyIdx × Bool)} (h : ∀ q, (k, q) ∉ after) :
    (writeKeys keys (before ++ (k, p) :: after))[k.val] = p := by
  rw [writeKeys_append]
  exact (writeKeys_of_not_mem h).trans (Vector.getElem_set_self _)

/-- Settles O57: the writes are made in order, so the last one to a key counts. -/
theorem hostTurnWritesOnlyKeypadAndPins : Obligations.HostTurnWritesOnlyKeypadAndPins := by
  refine fun s => ⟨writeKeys s.keys s.comingTurn.keyWrites, rfl, fun k => writeKeys_of_not_mem, ?_⟩
  intro k p before after hwrites hafter
  rw [hwrites]
  exact writeKeys_of_last before hafter

end Sys2Proof.Proofs.Frames
end

section
/-! SUPPORT. The instructions that write a register and, most of them, the flag (42_alu.md R204 to R213). -/

namespace Sys2Proof.Proofs.Flags

open Sys2Proof Sys2Proof.Machine Sys2Proof.Claims

/-! ## The flag -/

theorem flag_eq_bit {b : Bool} {p : Prop} [Decidable p] (hb : b = true ↔ p) : flag b = bit p :=
  if_congr hb rfl rfl

theorem flag_eq_one_iff {b : Bool} : flag b = 1 ↔ b = true := by
  cases b <;> decide

theorem getLsbD_zero_iff (v : Byte) : v.getLsbD 0 = true ↔ v.toNat % 2 = 1 := by
  rw [BitVec.getLsbD, Nat.testBit_zero, decide_eq_true_iff]

theorem getLsbD_seven_iff (v : Byte) : v.getLsbD 7 = true ↔ 128 ≤ v.toNat := by
  have hlt := v.isLt
  rw [BitVec.getLsbD, Nat.testBit_eq_decide_div_mod_eq, decide_eq_true_iff]
  omega

/-! ## The result -/

theorem sub8_toNat (a b : Byte) : ((sub8 a b).toNat : Int) = ((a.toNat : Int) - b.toNat) % 256 := by
  rw [sub8, BitVec.toNat_ofInt]
  exact Int.toNat_of_nonneg (Int.emod_nonneg _ (by decide))

theorem shiftRight1_toNat (v : Byte) : (shiftRight1 v).toNat = v.toNat / 2 := by
  rw [shiftRight1, BitVec.toNat_ushiftRight, Nat.shiftRight_one]

theorem shiftLeft1_toNat (v : Byte) : (shiftLeft1 v).toNat = v.toNat * 2 % 256 := by
  rw [shiftLeft1, BitVec.toNat_shiftLeft, Nat.shiftLeft_eq]

section

variable {s : State} (h : s.pc.toNat + 2 ≤ 0xFFF)

include h

/-- The result goes to VX first and the flag to VF last. -/
theorem complete_advance_setResultFlag (x : Reg) (r f : Byte) : s.complete (s.setResultFlag x r f) .advance =
    .next { s with V := (s.V.set x.val r).set 15 f, pc := s.pc + 2, result := some .ok } :=
  Alu.complete_advance h (s.setResultFlag x r f)

theorem complete_advance_flag (x : Reg) (r : Byte) {b : Bool} {p : Prop} [Decidable p] (hb : b = true ↔ p) :
    s.complete (s.setResultFlag x r (flag b)) .advance =
      .next { s with V := (s.V.set x.val r).set 15 (bit p), pc := s.pc + 2, result := some .ok } := by
  rw [← flag_eq_bit hb]
  exact complete_advance_setResultFlag h x r (flag b)

end

/-- Settles O22: the result and the cleared flag are one `State.setResultFlag` on the operands of the state before. -/
theorem logicClearsTheFlag : Obligations.LogicClearsTheFlag := fun x _ _ h =>
  ⟨complete_advance_setResultFlag h x _ 0, complete_advance_setResultFlag h x _ 0,
    complete_advance_setResultFlag h x _ 0⟩

/-- Settles O23: the flag is the carry, which tests the unbounded sum. -/
theorem addRegistersCarry : Obligations.AddRegistersCarry := fun x y s h =>
  ⟨add8 (s.v x) (s.v y), Alu.add8_toNat _ _, complete_advance_flag h x _ decide_eq_true_iff⟩

/-- Settles O24: both differences are `sub8`, and the flag compares the operands as numbers. -/
theorem subtractRegistersNotBorrow : Obligations.SubtractRegistersNotBorrow := fun x y s h =>
  ⟨⟨sub8 (s.v x) (s.v y), sub8_toNat _ _, complete_advance_flag h x _ decide_eq_true_iff⟩,
    ⟨sub8 (s.v y) (s.v x), sub8_toNat _ _, complete_advance_flag h x _ decide_eq_true_iff⟩⟩

/-- Settles O25: both shifts as numbers, and bits 0 and 7 as the tests that are put in the flag. -/
theorem shiftsPutTheBitOutInTheFlag : Obligations.ShiftsPutTheBitOutInTheFlag := fun x _ s h =>
  ⟨⟨shiftRight1 (s.v x), shiftRight1_toNat _, complete_advance_flag h x _ (getLsbD_zero_iff _)⟩,
    ⟨shiftLeft1 (s.v x), shiftLeft1_toNat _, complete_advance_flag h x _ (getLsbD_seven_iff _)⟩⟩

/-- Settles O26: the byte at the pin is read as it stands, whatever it is. -/
theorem randomByteIsMasked : Obligations.RandomByteIsMasked := fun x nn s h =>
  Alu.complete_advance_setV h x (s.rnd &&& nn)

end Sys2Proof.Proofs.Flags
end

section
/-! SUPPORT. Calls, returns, the indexed jump and the skips (41_control_flow.md R160 to R168, 45_timers_keypad.md R320,
R321). -/

namespace Sys2Proof.Proofs.Transfers

open Sys2Proof Sys2Proof.Machine Sys2Proof.Claims

section

variable {s s' : State}

/-! ## How a transfer and a skip end -/

theorem complete_transfer_of_le {a : Nat} (h : a ≤ 0xFFF) :
    s.complete s' (.transfer a) = .next { s' with pc := BitVec.ofNat 16 a, result := some .ok } := by
  rw [complete_eq, NextPc.target, State.finish_of_le _ h]

theorem complete_transfer_of_gt {a : Nat} (h : 0xFFF < a) :
    s.complete s' (.transfer a) = .next (faultedWith s (.pcOutOfRange a)) := by
  rw [complete_eq, NextPc.target, State.finish_of_gt _ h]
  rfl

theorem target_skipIf_eq_skipBy {b : Bool} {p : Prop} [Decidable p] (hb : b = true ↔ p) (pc : Nat) :
    (skipIf b).target pc = pc + skipBy p := by
  rw [Step.target_skipIf]
  exact congrArg (pc + ·) (if_congr hb rfl rfl)

theorem complete_skipIf_of_le {b : Bool} {p : Prop} [Decidable p] (hb : b = true ↔ p)
    (h : s.pc.toNat + skipBy p ≤ 0xFFF) : s.complete s (skipIf b) = .next (movedBy s (skipBy p)) := by
  rw [complete_eq, target_skipIf_eq_skipBy hb, State.finish_of_le _ h]
  rfl

theorem complete_skipIf_of_gt {b : Bool} {p : Prop} [Decidable p] (hb : b = true ↔ p)
    (h : 0xFFF < s.pc.toNat + skipBy p) :
    s.complete s (skipIf b) = .next (faultedWith s (.pcOutOfRange (s.pc.toNat + skipBy p))) := by
  rw [complete_eq, target_skipIf_eq_skipBy hb, State.finish_of_gt _ h]
  rfl

/-! ## Call and return -/

theorem exec_call_of_lt (nnn : Addr12) (h : s.sp.val < 16) : exec (.call nnn) s = .next { s with
    stack := s.stack.set s.sp.val (s.pc + 2), sp := ⟨s.sp.val + 1, by omega⟩, pc := absolute nnn,
    result := some .ok } :=
  (Meaning.exec_call nnn h).trans (ControlFlow.complete_transfer_absolute s _ nnn)

theorem exec_ret_of_le (h : 0 < s.sp.val) (hle : s.stack[s.sp.val - 1].toNat ≤ 0xFFF) : exec .ret s = .next { s with
    sp := ⟨s.sp.val - 1, by omega⟩, pc := s.stack[s.sp.val - 1], result := some .ok } := by
  rw [Meaning.exec_ret h, complete_transfer_of_le hle, BitVec.ofNat_toNat, BitVec.setWidth_eq]

end

/-- Settles O28: the target is an unbounded sum, which the end of the step checks. -/
theorem jumpV0NeverWraps : Obligations.JumpV0NeverWraps := fun _ _ =>
  ⟨complete_transfer_of_le, complete_transfer_of_gt⟩

/-- Settles O29: with a free entry the call is a push and a transfer to an absolute address. -/
theorem callPushesTheReturnAddress : Obligations.CallPushesTheReturnAddress := fun nnn _ =>
  ⟨exec_call_of_lt nnn, fun h => Meaning.exec_of_ownFault (if_pos h)⟩

/-- Settles O30: a return is a pop and a transfer, whose target the end of the step checks. -/
theorem returnPopsThePc : Obligations.ReturnPopsThePc := fun _ =>
  ⟨exec_ret_of_le, fun h hgt => (Meaning.exec_ret h).trans (complete_transfer_of_gt hgt),
    fun h => Meaning.exec_of_ownFault (if_pos h)⟩

/-- Settles O31: the return pops the slot that the call filled, which lies below the sp that the call left. -/
theorem callThenReturnRoundTrip : Obligations.CallThenReturnRoundTrip := by
  intro nnn s t u _ hsp hpc hcall hstack husp
  cases (exec_call_of_lt nnn hsp).symm.trans hcall
  refine ⟨Encoding.absolute_toNat nnn, ?_⟩
  have hval : u.sp.val = s.sp.val + 1 := congrArg Fin.val husp
  have hpopped : u.stack[u.sp.val - 1] = s.pc + 2 := by
    simp only [hval, Nat.add_sub_cancel]
    exact (hstack ⟨s.sp.val, hsp⟩ le_rfl).trans (Vector.getElem_set_self _)
  have hreturn : u.stack[u.sp.val - 1].toNat = s.pc.toNat + 2 := by
    rw [hpopped, ← Cycle.ofNat_pc_add_two, BitVec.toNat_ofNat]
    exact Nat.mod_eq_of_lt (by omega)
  refine ⟨_, exec_ret_of_le (by omega) (hreturn.trans_le hpc), hreturn,
    Fin.ext (Nat.sub_eq_of_eq_add hval), rfl⟩

/-- Settles O32: each skip tests its condition, and the pc moves by 4 or 2 on it. -/
theorem registerSkips : Obligations.RegisterSkips := fun _ _ _ _ =>
  ⟨complete_skipIf_of_le beq_iff_eq, complete_skipIf_of_gt beq_iff_eq,
    complete_skipIf_of_le bne_iff_ne, complete_skipIf_of_gt bne_iff_ne,
    complete_skipIf_of_le beq_iff_eq, complete_skipIf_of_gt beq_iff_eq,
    complete_skipIf_of_le bne_iff_ne, complete_skipIf_of_gt bne_iff_ne⟩

/-- Settles O47: the flag of the key that VX selects decides the skip; above 0x0F the own check fails. -/
theorem keypadSkips : Obligations.KeypadSkips := fun _ _ =>
  ⟨fun h =>
      ⟨fun hle => (Meaning.exec_skp (Nat.lt_succ_of_le h)).trans (complete_skipIf_of_le Iff.rfl hle),
        fun hle => (Meaning.exec_sknp (Nat.lt_succ_of_le h)).trans
          (complete_skipIf_of_le (Bool.not_eq_true' _).to_iff hle)⟩,
    fun h => ⟨Meaning.exec_of_ownFault (if_pos h), Meaning.exec_of_ownFault (if_pos h)⟩⟩

end Sys2Proof.Proofs.Transfers
end

section
/-! SUPPORT. The sprite instruction (43_display.md R250 to R253). -/

namespace Sys2Proof.Proofs.Sprites

open Sys2Proof Sys2Proof.Machine Sys2Proof.Claims

/-! ## The rows -/

section

variable {s s' t : State} {x y : Reg} {n : Nat}

theorem bytesFrom_length (a : Nat) : (s.bytesFrom a n).length = n := by
  simp [State.bytesFrom]

theorem bytesFrom_getElem (a r : Nat) (h : r < (s.bytesFrom a n).length) : (s.bytesFrom a n)[r] = s.byte (a + r) := by
  simp [State.bytesFrom]

theorem bytesFrom_congr {a : Nat} (h : ∀ r < n, s'.byte (a + r) = s.byte (a + r)) :
    s'.bytesFrom a n = s.bytesFrom a n :=
  List.map_congr_left fun r hr => h r (List.mem_range.1 hr)

/-! ## One draw -/

/-- A draw that completed left the blit of the rows at I, and the collision in VF. -/
theorem draw_of_ok (hn : n ≠ 0) (hexec : exec (.drw x y n) s = .next t) (hok : t.result = some .ok) :
    t.disp = (s.draw x y n).disp ∧ t.V = (s.draw x y n).V := by
  obtain ⟨r, rfl⟩ | ⟨-, rfl⟩ := Meaning.exec_next_cases hexec
  · cases hok
  · simp only [Meaning.written, if_neg hn, and_self]

theorem draw_disp : (s.draw x y n).disp =
    (blit (s.bytesFrom s.indexBase n) (s.v x).toNat (s.v y).toNat s.disp).1 := rfl

theorem draw_V : (s.draw x y n).V =
    s.V.set 15 (flag (blit (s.bytesFrom s.indexBase n) (s.v x).toNat (s.v y).toNat s.disp).2) := rfl

end

/-- Settles O35: the rows are the bytes from I on, and the flag is written over the registers last. -/
theorem drawBlitsTheSpriteAtI : Obligations.DrawBlitsTheSpriteAtI := by
  intro x y n s hn _ hrange hpc
  refine ⟨s.bytesFrom s.indexBase n, bytesFrom_length _, bytesFrom_getElem _, ?_⟩
  rw [Meaning.exec_drw (Nat.ne_of_gt hn) (Meaning.readRangeFault_eq_none.2 hrange), Alu.complete_advance hpc,
    ← Flags.flag_eq_bit Iff.rfl]
  rfl

/-- Settles O36: a failing range reports its lowest address above 0xFFF, which is 0x1000 for an I within memory. -/
theorem drawOutOfRangeAndZeroHeight : Obligations.DrawOutOfRangeAndZeroHeight := by
  intro x y n s
  refine ⟨fun hn _ hI hout => Meaning.exec_of_ownFault ?_, fun hz => Meaning.exec_of_ownFault (if_pos hz),
    fun hz hpc => (Meaning.exec_drw_zero hz).trans (Alu.complete_advance_setV hpc 15 0)⟩
  have hlowest : max s.I.toNat 0x1000 = 0x1000 := Nat.max_eq_right (Nat.le_succ_of_le hI)
  simp only [ownFault, readRangeFault, if_neg (Nat.ne_of_gt hn), if_pos hout, hlowest]

/-! ## Two draws -/

section

variable (rows : List Byte) (x0 y0 : Nat) (d : Display) (hlen : rows.length ≤ 32)

include hlen

theorem blit_inverts : Framebuffer.Inverts (Covers rows x0 y0) (d, false) (blit rows x0 y0 d) :=
  Framebuffer.blitRows_inverts x0 rows y0 (d, false) hlen

/-- A pixel that the sprite covers is inverted twice, and another one not at all. -/
theorem blit_blit : (blit rows x0 y0 (blit rows x0 y0 d).1).1 = d := by
  have hfirst := blit_inverts rows x0 y0 d hlen
  have hsecond := blit_inverts rows x0 y0 (blit rows x0 y0 d).1 hlen
  refine Display.ext_pixel fun px py => ?_
  by_cases hc : Covers rows x0 y0 px py
  · rw [hsecond.inside px py hc, hfirst.inside px py hc, Bool.not_not]
  · rw [hsecond.outside px py hc, hfirst.outside px py hc]

/-- The second blit collides where the first turned a pixel on. -/
theorem blit_blit_collides : (blit rows x0 y0 (blit rows x0 y0 d).1).2 = true ↔
    ∃ px py, d.pixel px py = false ∧ (blit rows x0 y0 d).1.pixel px py = true := by
  have hfirst := blit_inverts rows x0 y0 d hlen
  refine (blit_inverts rows x0 y0 (blit rows x0 y0 d).1 hlen).collides.trans ((or_iff_right Bool.false_ne_true).trans
    (exists_congr fun px => exists_congr fun py => and_congr_left fun hset => ?_))
  by_cases hc : Covers rows x0 y0 px py
  · rw [hfirst.inside px py hc] at hset
    exact iff_of_true hc ((Bool.not_eq_true' _).mp hset)
  · rw [hfirst.outside px py hc] at hset
    exact iff_of_false hc (by simp [hset])

end

/-- Settles O37: both draws blit the same rows at the same place, the second on the display that the first left. -/
theorem drawTwiceRestoresTheDisplay : Obligations.DrawTwiceRestoresTheDisplay := by
  intro x y n s t s' t' hn hn15 hexec hok hdisp hI hx hy hbytes hexec' hok'
  obtain ⟨htdisp, -⟩ := draw_of_ok (Nat.ne_of_gt hn) hexec hok
  obtain ⟨htdisp', htV'⟩ := draw_of_ok (Nat.ne_of_gt hn) hexec' hok'
  have hrows : s'.bytesFrom s'.indexBase n = s.bytesFrom s.indexBase n := by
    rw [State.indexBase, hI]
    exact bytesFrom_congr hbytes
  have hvx : s'.v x = s.v x := hx
  have hvy : s'.v y = s.v y := hy
  have hlen : (s.bytesFrom s.indexBase n).length ≤ 32 := by rw [bytesFrom_length]; omega
  rw [draw_disp] at htdisp
  rw [draw_disp, hrows, hvx, hvy, hdisp, htdisp] at htdisp'
  rw [draw_V, hrows, hvx, hvy, hdisp, htdisp] at htV'
  refine ⟨htdisp'.trans (blit_blit _ _ _ _ hlen), ?_⟩
  rw [htV', Vector.getElem_set_self, Flags.flag_eq_one_iff, htdisp]
  exact blit_blit_collides _ _ _ _ hlen

end Sys2Proof.Proofs.Sprites
end

section
/-! SUPPORT. The index register and the transfers between registers and memory (44_index_memory.md R274 to R280). -/

namespace Sys2Proof.Proofs.RegisterMemory

open Sys2Proof Sys2Proof.Machine Sys2Proof.Claims

/-! ## The index register -/

/-- Settles O39: the glyph address is five times a byte, which fits 16 bits. -/
theorem fontAddressIsFiveTimesTheDigit : Obligations.FontAddressIsFiveTimesTheDigit := fun x s h =>
  ⟨glyphAddress (s.v x), glyphAddress_toNat _, Alu.complete_advance h _⟩

/-- Settles O40: the sum is checked before the pc, and fits the register where it passes. -/
theorem addToIndexFaultsPastMemory : Obligations.AddToIndexFaultsPastMemory := by
  intro x s
  refine ⟨fun hle hpc => ⟨BitVec.ofNat 16 (s.indexPlus x), Nat.mod_eq_of_lt ?_, ?_⟩,
    fun hgt => Meaning.exec_of_ownFault (if_pos hgt)⟩
  · exact hle.trans_lt (by decide)
  · exact (if_neg (Nat.not_lt.2 hle)).trans (Alu.complete_advance hpc _)

/-! ## Stores -/

section

variable {s : State} {a : Nat} {bs : List Byte}

theorem complete_storeBytes (hpc : s.pc.toNat + 2 ≤ 0xFFF) : s.complete (s.storeBytes a bs) .advance =
    .next { s with mem := (s.storeBytes a bs).mem, pc := s.pc + 2, result := some .ok } :=
  (congrArg (s.complete · .advance) (ResetAndHazards.storeBytes_eq_with_mem bs s a)).trans (Alu.complete_advance hpc _)

theorem read_storeBytes_inside (hwf : s.mem.wf s.font = true) (k : Nat) (hk : k < bs.length) :
    (s.storeBytes a bs).mem.read s.font (a + k) = bs[k] :=
  (ResetAndHazards.read_mem_storeBytes bs s a _).trans (State.byte_storeBytes_inside bs s a k hk hwf)

theorem read_storeBytes_outside {a' : Nat} (h : a' < a ∨ a + bs.length ≤ a') :
    (s.storeBytes a bs).mem.read s.font a' = s.byte a' :=
  (ResetAndHazards.read_mem_storeBytes bs s a a').trans (State.byte_storeBytes_outside bs s a h)

end

theorem decimalDigit_toNat {a : Nat} (h : a < 256) : (BitVec.ofNat 8 a).toNat = a := Nat.mod_eq_of_lt h

/-- Settles O41: one range store of the three digits, which are each below 256. -/
theorem storeDecimalDigits : Obligations.StoreDecimalDigits := by
  intro x s hwf hfont hI hpc
  have hrange : writeRangeFault s 3 = none := Meaning.writeRangeFault_eq_none.2 ⟨hfont, Nat.succ_le_succ hI⟩
  have hlt := (s.v x).isLt
  have hread : ∀ k (hk : k < 3), _ = (decimalDigits (s.v x))[k] :=
    read_storeBytes_inside (a := s.indexBase) (bs := decimalDigits (s.v x)) hwf
  refine ⟨_, (Meaning.exec_ldBVx hrange).trans (complete_storeBytes hpc), State.wf_storeBytes _ _ _ hwf, ?_, ?_, ?_,
    fun a ha => read_storeBytes_outside ha⟩
  · exact (congrArg BitVec.toNat (hread 0 (by decide))).trans (decimalDigit_toNat (by omega))
  · exact (congrArg BitVec.toNat (hread 1 (by decide))).trans (decimalDigit_toNat (by omega))
  · exact (congrArg BitVec.toNat (hread 2 (by decide))).trans (decimalDigit_toNat (by omega))

/-- Settles O42: one range store of V0 to VX. -/
theorem storeRegisters : Obligations.StoreRegisters := by
  intro x s hwf hfont hI hpc
  have hrange : writeRangeFault s (x.val + 1) = none :=
    Meaning.writeRangeFault_eq_none.2 ⟨hfont, Nat.succ_le_succ hI⟩
  refine ⟨_, (Meaning.exec_ldMiVx hrange).trans (complete_storeBytes hpc), State.wf_storeBytes _ _ _ hwf,
    fun k hk => ?_, fun a ha => read_storeBytes_outside ?_⟩
  · have hlen : k.val < (s.regsTo x).length := by rw [State.regsTo_length]; omega
    exact (read_storeBytes_inside hwf k.val hlen).trans (State.regsTo_getElem s x k.val hlen)
  · rw [State.regsTo_length]
    exact ha

/-! ## Loads -/

/-- A load writes the registers alone. -/
theorem loadRegs_eq_with_V (s : State) (x : Reg) (a : Nat) : s.loadRegs x a = { s with V := (s.loadRegs x a).V } := rfl

theorem complete_loadRegs {s : State} (hpc : s.pc.toNat + 2 ≤ 0xFFF) (x : Reg) (a : Nat) :
    s.complete (s.loadRegs x a) .advance =
      .next { s with V := (s.loadRegs x a).V, pc := s.pc + 2, result := some .ok } :=
  (congrArg (s.complete · .advance) (loadRegs_eq_with_V s x a)).trans (Alu.complete_advance hpc _)

/-- Settles O43: the registers above X are those from before the load. -/
theorem loadRegisters : Obligations.LoadRegisters := by
  intro x s hI hpc
  have hrange : readRangeFault s (x.val + 1) = none := Meaning.readRangeFault_eq_none.2 (Nat.succ_le_succ hI)
  exact ⟨_, (Meaning.exec_ldVxMi hrange).trans (complete_loadRegs hpc x _),
    fun k hk => (State.v_loadRegs s x k _).trans (if_pos hk),
    fun k hk => (State.v_loadRegs s x k _).trans (if_neg (Nat.not_le.2 hk))⟩

end Sys2Proof.Proofs.RegisterMemory
end

section
/-! SUPPORT. The timers: setting them and the tick (45_timers_keypad.md R301 to R308). -/

namespace Sys2Proof.Proofs.Timers

open Sys2Proof Sys2Proof.Machine Sys2Proof.Claims

/-- Settles O45: each meaning writes its timer and advances. -/
theorem setTimers : Obligations.SetTimers := fun _ _ h => ⟨Alu.complete_advance h _, Alu.complete_advance h _⟩

theorem timerDown_toNat (t : Byte) : (timerDown t).toNat = t.toNat - 1 := by
  unfold timerDown
  split_ifs with h
  · rw [h]
    rfl
  · bv_omega

theorem tick_of_not_past {s : State} (h : ¬ (s.lastTick < s.now ∧ 1000000000 < 60 * (s.now - s.lastTick))) :
    s.tick = s :=
  State.tick_of_not_due (Bool.eq_false_iff.2 (mt s.tickDue_iff.1 h))

/-- Settles O46: both timers move on the one test of the clock, each down by one or not at all. -/
theorem tickDecrementsOncePastTheThreshold : Obligations.TickDecrementsOncePastTheThreshold := fun s =>
  ⟨fun hlater hpast => ⟨timerDown s.dt, timerDown s.st, timerDown_toNat _, timerDown_toNat _,
      State.tick_of_due (s.tickDue_iff.2 ⟨hlater, hpast⟩)⟩,
    fun h => tick_of_not_past fun hdue => Nat.not_lt.2 h hdue.1,
    fun h => tick_of_not_past fun hdue => Nat.not_lt.2 h hdue.2⟩

end Sys2Proof.Proofs.Timers
end

section
/-! SUPPORT. The key wait: its entry, its steps, how it is left (45_timers_keypad.md R322 to R328, 60_exceptions.md
R366). -/

namespace Sys2Proof.Proofs.KeyWait

open Sys2Proof Sys2Proof.Machine Sys2Proof.Claims

/-! ## The entry step -/

/-- Settles O48: the entry writes the mode and stays. -/
theorem keyWaitEntry : Obligations.KeyWaitEntry := by
  intro x s hpc
  have hexec : exec (.ldVxK x) s = s.complete { s with mode := .awaitingKey x s.keys } .stay := rfl
  rw [hexec, complete_eq, NextPc.target, State.finish_of_le _ hpc, BitVec.ofNat_toNat, BitVec.setWidth_eq]

/-! ## The wait step -/

section

variable {s : State} {x : Reg} {prev : Keys}

theorem pressEdges_eq_nil_iff {keys : Keys} :
    pressEdges prev keys = [] ↔ ∀ k : KeyIdx, ¬ (prev[k.val] = false ∧ keys[k.val] = true) := by
  simp only [List.eq_nil_iff_forall_not_mem, mem_pressEdges]

theorem waitStep_of_no_edge (h : ∀ k : KeyIdx, ¬ (prev[k.val] = false ∧ s.keys[k.val] = true)) :
    s.waitStep x prev = { s with mode := .awaitingKey x s.keys, result := some .ok } := by
  rw [State.waitStep, pressEdges_eq_nil_iff.2 h]

theorem keyByte_toNat (k : KeyIdx) : (BitVec.ofNat 8 k.val).toNat = k.val := Nat.mod_eq_of_lt (by omega)

end

/-- Settles O49: the three ends of a wait step, of which the edges and the pc leave one each. -/
theorem keyWaitStep : Obligations.KeyWaitStep := by
  intro s x prev hmode
  have hstep := (Cycle.CoreStepTo.wait hmode).step_eq
  refine ⟨fun hnone => ?_, fun hedge hpc => ?_, fun hedge hpc => ?_⟩
  · rw [hstep, waitStep_of_no_edge hnone, Cycle.endStep_of_awaiting rfl]
  · obtain ⟨hnil, -⟩ | ⟨-, k, hk, he⟩ | ⟨hgt, -⟩ := State.waitStep_cases s x prev
    · exact absurd hedge (not_exists.2 (pressEdges_eq_nil_iff.1 hnil))
    · obtain ⟨hprev, hkey⟩ := mem_pressEdges.1 hk
      refine ⟨k, BitVec.ofNat 8 k.val, hprev, hkey, keyByte_toNat k, ?_⟩
      rw [hstep, he, Cycle.ofNat_pc_add_two, Cycle.endStep_of_running rfl]
      rfl
    · omega
  · obtain ⟨hnil, -⟩ | ⟨hle, -⟩ | ⟨-, -, he⟩ := State.waitStep_cases s x prev
    · exact absurd hedge (not_exists.2 (pressEdges_eq_nil_iff.1 hnil))
    · omega
    · rw [hstep, he, State.endStep_of_faulted rfl]
      rfl

/-- Every key of the list is the choice of the draw that is its position. -/
theorem exists_chooseKey {k k₀ : KeyIdx} {ks : List KeyIdx} (h : k ∈ k₀ :: ks) : ∃ pick, chooseKey pick k₀ ks = k := by
  obtain ⟨pick, hlt, hk⟩ := List.getElem_of_mem h
  have hmod : pick % (ks.length + 1) = pick := Nat.mod_eq_of_lt hlt
  exact ⟨pick, by simp only [chooseKey, hmod, hk]⟩

/-- Settles O50: the draw that is the key's position among the edges chooses it. -/
theorem anyPressedKeyCanBeReported : Obligations.AnyPressedKeyCanBeReported := by
  intro s x prev k hmode hpc hprev hkey
  have hk : k ∈ pressEdges prev s.keys := mem_pressEdges.2 ⟨hprev, hkey⟩
  obtain ⟨k₀, ks, hedges⟩ := List.exists_cons_of_ne_nil (List.ne_nil_of_mem hk)
  obtain ⟨pick, hpick⟩ := exists_chooseKey (hedges ▸ hk)
  have hwait : { s with keyPick := pick }.waitStep x prev =
      { { s with keyPick := pick }.setV x (BitVec.ofNat 8 k.val) with
        mode := .running, pc := BitVec.ofNat 16 (s.pc.toNat + 2), result := some .ok } := by
    simp only [State.waitStep, hedges, hpick]
    exact State.finish_of_le _ hpc
  have hstep := (Cycle.CoreStepTo.wait (s := { s with keyPick := pick }) hmode).step_eq
  rw [hwait, Cycle.endStep_of_running rfl] at hstep
  exact ⟨pick, _, hstep, (congrArg BitVec.toNat (Vector.getElem_set_self _)).trans (keyByte_toNat k), rfl⟩

/-! ## How the wait is entered and left -/

/-- A running step waits afterwards only where it ran an FX0A, which takes the sample and stays. -/
theorem entered_of_exec {s t : State} {i : Instr} {x : Reg} {prev : Keys} (hmode : s.mode = .running)
    (hexec : exec i s = .next t) (hwait : t.mode = .awaitingKey x prev) :
    i = .ldVxK x ∧ prev = s.keys ∧ t.pc = s.pc := by
  obtain ⟨r, he⟩ | ⟨s', c, he, -, hwrites⟩ := exec_cases i s <;> cases he.symm.trans hexec
  · cases hwait
  · obtain ⟨-, he⟩ | ⟨-, he⟩ := State.finish_cases s s' (c.target s.pc.toNat) .ok <;> rw [he] at hwait ⊢
    · obtain hsame | ⟨y, rfl, rfl, hawait, -⟩ := hwrites
      · cases (hsame.trans hmode).symm.trans hwait
      · cases hawait.symm.trans hwait
        exact ⟨rfl, rfl, (BitVec.ofNat_toNat 16 s.pc).trans (BitVec.setWidth_eq _)⟩
    · cases hwait

theorem not_waiting_of_decodeFailure {s : State} (hmode : s.mode = .running) (x : Reg) (prev : Keys) :
    s.decodeFailure.mode ≠ .awaitingKey x prev := by
  obtain ⟨-, he⟩ | ⟨-, he⟩ := State.finish_cases s s (s.pc.toNat + 2) .decodeFailure <;>
    simp [State.decodeFailure, he, hmode]

/-- Settles O51: the end of a step and the host's turn keep the mode, so it is the one that the instruction or the wait
step leaves. -/
theorem keyWaitIsEnteredAndLeftAsStated : Obligations.KeyWaitIsEnteredAndLeftAsStated := by
  constructor
  · intro s t x prev hmode hstep hwait
    obtain ⟨u, hu, rfl⟩ := Cycle.coreStepTo_of_step hstep
    cases hu with
    | faulted hmode' => cases hmode.symm.trans hmode'
    | wait hmode' => cases hmode.symm.trans hmode'
    | noFetch => cases hwait
    | noDecode => exact absurd ((Cycle.endStep_mode _).symm.trans hwait) (not_waiting_of_decodeFailure hmode x prev)
    | exec _ hfetch hdecode hexec =>
      obtain ⟨rfl, hprev, hpc⟩ := entered_of_exec hmode hexec ((Cycle.endStep_mode _).symm.trans hwait)
      obtain ⟨-, hword⟩ := DecodeEncode.isWordOf_of_decodeWord hdecode
      exact ⟨hfetch.trans (congrArg some hword.symm), hprev, (Cycle.endStep_pc _).trans hpc⟩
  · intro s t x prev hmode hstep
    cases (Cycle.CoreStepTo.wait hmode).step_eq.symm.trans hstep
    rw [State.hostTurn_mode, Cycle.endStep_mode]
    obtain ⟨-, he⟩ | ⟨-, k, hk, he⟩ | ⟨-, hne, he⟩ := State.waitStep_cases s x prev <;> rw [he]
    · exact .inl rfl
    · exact .inr ⟨⟨k, mem_pressEdges.1 hk⟩, .inl rfl⟩
    · obtain ⟨k, hk⟩ := List.exists_mem_of_ne_nil _ hne
      exact .inr ⟨⟨k, mem_pressEdges.1 hk⟩, .inr rfl⟩

end Sys2Proof.Proofs.KeyWait
end

section
/-! SUPPORT. The state after reset and the host's ports (10_state.md R45, 70_reset_and_hazards.md R385, R386). -/

namespace Sys2Proof.Proofs.HostPorts

open Sys2Proof Sys2Proof.Machine Sys2Proof.Claims

/-- After reset no cell is listed, so memory reads as the reset contents. -/
theorem byte_resetPort (t0 : Nat) (font : Font) (dz : DrawZeroHeight) (a : Nat) :
    (State.resetPort t0 font dz).byte a = resetContents font a := rfl

/-- Settles O58: memory has no listed cell, and every other element is a constant of the reset port. -/
theorem resetValues : Obligations.ResetValues := by
  intro t0 font dz
  refine ⟨fun a => ?_, fun a ha => ?_, fun r => Vector.getElem_replicate _, rfl, rfl,
    fun j => Vector.getElem_replicate _, rfl, rfl, rfl, fun x y => Display.pixel_clear x y,
    fun k => Vector.getElem_replicate _, rfl, rfl⟩
  · rw [byte_resetPort, resetContents, dif_pos a.isLt]
  · rw [byte_resetPort, resetContents, dif_neg (Nat.not_lt.2 ha)]

theorem load_of_too_long {s : State} {prog : List Byte} (h : 0xE00 < prog.length) : ∃ r, s.load prog = .refused r := by
  unfold State.load
  split_ifs with hlate hlong
  · exact ⟨_, rfl⟩
  · exact ⟨_, rfl⟩
  · exact absurd h hlong

theorem setKey_of_lt (s : State) (k : KeyIdx) (p : Bool) : s.setKey k.val p = .next (s.putKey k p) :=
  dif_pos k.isLt

theorem pixelAt_of_lt (s : State) (x : Fin 64) (y : Fin 32) : s.pixelAt x.val y.val = .ok (s.disp.pixel x y) :=
  dif_pos ⟨x.isLt, y.isLt⟩

/-- Settles O60: each port's own test decides between its refusal and its answer. -/
theorem hostPortsRefuseContractViolations : Obligations.HostPortsRefuseContractViolations :=
  ⟨fun _ _ => load_of_too_long,
    fun _ _ h => ⟨_, if_pos h⟩,
    fun _ _ _ h => ⟨_, dif_neg (Nat.not_lt.2 h)⟩,
    setKey_of_lt,
    fun _ _ _ h => ⟨_, dif_neg fun hin => h.elim (Nat.not_le.2 hin.1) (Nat.not_le.2 hin.2)⟩,
    pixelAt_of_lt,
    fun _ => rfl⟩

end Sys2Proof.Proofs.HostPorts
end
